-- ==== Sys2Proof/Word.lean ====
section
/-! DEFINITION. The unit of all state (spec/10_state.md R10): the 16-bit word, and the byte that crosses the
boundary to keyboard, console and image file (spec/20_memory.md R38). -/

namespace Sys2Proof

/-- R10: "a 16-bit unsigned integer; the universal unit of storage, address, and instruction encoding". -/
abbrev Word := BitVec 16

/-- A character at the keyboard and console, and a byte of a program image (R23, R151). -/
abbrev Byte := BitVec 8

end Sys2Proof
end

