-- ==== Sys2Proof/Config.lean ====
section
/-! DEFINITION. The record of the named parameters of spec/00_scope.md R4 (their default values are
`config` in Machine/Params.lean), and the free value of the model: the keyboard's answer to a poll. -/

namespace Sys2Proof

/-- The three flag values of COND (spec/10_state.md R14): Negative, Zero, Positive. COND holds exactly one of
them, so it is a type of three values; its 3-bit one-hot code is `Machine.condCode`. -/
inductive Cond where
  | neg
  | zero
  | pos
deriving DecidableEq, Repr

/-- R4: the values no source gives, each a named parameter. -/
structure Config where
  /-- `OP_<mnemonic>`, decision D1. -/
  opBR : BitVec 4
  opADD : BitVec 4
  opLD : BitVec 4
  opST : BitVec 4
  opJSR : BitVec 4
  opAND : BitVec 4
  opLDR : BitVec 4
  opSTR : BitVec 4
  opRTI : BitVec 4
  opNOT : BitVec 4
  opLDI : BitVec 4
  opSTI : BitVec 4
  opJMP : BitVec 4
  opRES : BitVec 4
  opLEA : BitVec 4
  opTRAP : BitVec 4
  /-- `FL_P`, `FL_Z`, `FL_N`: the one-hot codes of COND, decision D3. -/
  flP : BitVec 3
  flZ : BitVec 3
  flN : BitVec 3
  /-- `BR_N_BIT`, `BR_Z_BIT`, `BR_P_BIT`, decision D3. -/
  brNBit : Nat
  brZBit : Nat
  brPBit : Nat
  /-- `JSR_LONG_BIT`, decision D4. -/
  jsrLongBit : Nat
  /-- `KBSR_ADDR`, `KBDR_ADDR`: the two mapped addresses, distinct, decision D5. -/
  kbsrAddr : Word
  kbdrAddr : Word
  /-- `KBSR_READY`: the new status word when a key is ready, decision D8. -/
  kbsrReady : Word → Word
  /-- `RESET_GPR`, decision D10. -/
  resetGpr : Word
  /-- `RESET_COND`, decision D11. -/
  resetCond : Cond
  /-- `RESET_MEM`, decision D12. -/
  resetMem : Word
  /-- `TRAP_LINKS_R7`, decision D13. -/
  trapLinksR7 : Bool
  /-- `TRAP_INPUT_SETS_FLAGS`, decision D14. -/
  trapInputSetsFlags : Bool
  /-- `HALT_MSG`, decision D19. -/
  haltMsg : List Byte

/-- The FREE VALUE of the model: the answer of `KbdAvail()` to the n-th poll of a run once the answers the state
lists (`State.keyPolls`) are used up. Spec/10_state.md R23 and decision D22: "each KbdAvail() answer is a free
input of the step". It has no body, so nothing can be proved of its values (log 25). -/
opaque Config.freePoll : Nat → Bool

end Sys2Proof
end

