-- ==== Sys2Proof/Machine/Params.lean ====
section
/-! DEFINITION. The default values of the parameters of spec/00_scope.md R4. -/

namespace Sys2Proof

/-- The defaults of R4, "what every rule, vector and program in this spec uses". PRESUMED (opcode numbers, bit
positions, COND codes, addresses, message: logs 2, 4, 5, 6, 22) and DESIGN CHOICE (the rest: logs 9, 11, 12, 13,
16, 17). -/
def config : Config where
  opBR := 0
  opADD := 1
  opLD := 2
  opST := 3
  opJSR := 4
  opAND := 5
  opLDR := 6
  opSTR := 7
  opRTI := 8
  opNOT := 9
  opLDI := 10
  opSTI := 11
  opJMP := 12
  opRES := 13
  opLEA := 14
  opTRAP := 15
  flP := 0b001
  flZ := 0b010
  flN := 0b100
  brNBit := 11
  brZBit := 10
  brPBit := 9
  jsrLongBit := 11
  kbsrAddr := 0xFE00
  kbdrAddr := 0xFE02
  kbsrReady := fun old => old ||| 0x8000
  resetGpr := 0x0000
  resetCond := .zero
  resetMem := 0x0000
  trapLinksR7 := false
  trapInputSetsFlags := false
  haltMsg := [0x48, 0x41, 0x4C, 0x54, 0x0A]

end Sys2Proof
end

