-- ==== Sys2Proof/Syntax.lean ====
section
/-! DEFINITION. The instructions, one constructor per row of spec/opcode_table.json (24 rows), with the operands
that spec/30_encoding.md R55 gives each: registers by name, immediates and offsets already sign-extended to a word. -/

namespace Sys2Proof

/-- The eight general registers (spec/10_state.md R11); a 3-bit field names exactly one of them. -/
inductive Reg where
  | r0 | r1 | r2 | r3 | r4 | r5 | r6 | r7
deriving DecidableEq, Repr

/-- The 16 opcodes of spec/30_encoding.md R54. -/
inductive Opcode where
  | br | add | ld | st | jsr | and | ldr | str | rti | not | ldi | sti | jmp | res | lea | trap
deriving DecidableEq, Repr

/-- One instruction. `imm` and `off` are the sign-extended field (R53), `n z p` the condition mask of BR. -/
inductive Instr where
  /-- ADD, register mode (R70). -/
  | addReg (dr sr1 sr2 : Reg)
  /-- ADD, immediate mode (R71). -/
  | addImm (dr sr1 : Reg) (imm : Word)
  /-- AND, register mode (R72). -/
  | andReg (dr sr1 sr2 : Reg)
  /-- AND, immediate mode (R73). -/
  | andImm (dr sr1 : Reg) (imm : Word)
  /-- NOT (R74). -/
  | notReg (dr sr : Reg)
  /-- BR (R80). -/
  | br (n z p : Bool) (off : Word)
  /-- JMP, and RET when the base is R7 (R81, R82). -/
  | jmp (base : Reg)
  /-- JSR (R83). -/
  | jsr (off : Word)
  /-- JSRR (R84). -/
  | jsrr (base : Reg)
  /-- LD (R90). -/
  | ld (dr : Reg) (off : Word)
  /-- LDI (R91). -/
  | ldi (dr : Reg) (off : Word)
  /-- LDR (R92). -/
  | ldr (dr base : Reg) (off : Word)
  /-- LEA (R93). -/
  | lea (dr : Reg) (off : Word)
  /-- ST (R100). -/
  | st (sr : Reg) (off : Word)
  /-- STI (R101). -/
  | sti (sr : Reg) (off : Word)
  /-- STR (R102). -/
  | str (sr base : Reg) (off : Word)
  /-- TRAP x20, GETC (R111). -/
  | trapGetc
  /-- TRAP x21, OUT (R112). -/
  | trapOut
  /-- TRAP x22, PUTS (R113). -/
  | trapPuts
  /-- TRAP x23, IN (R114). -/
  | trapIn
  /-- TRAP x24, PUTSP (R115). -/
  | trapPutsp
  /-- TRAP x25, HALT (R116). -/
  | trapHalt
  /-- RTI, a reserved opcode (R118). -/
  | rti
  /-- RES, a reserved opcode (R119). -/
  | res
deriving DecidableEq, Repr

/-- What a word decodes to (R55): a row of the opcode table, or a TRAP whose vector is none of the six defined
ones, which is no row of the table (R59, R117). -/
inductive Decoded where
  | instr (i : Instr)
  | undefinedTrap (vect : BitVec 8)
deriving DecidableEq, Repr

end Sys2Proof
end

