-- ==== Sys2Proof/WellFormed.lean ====
section
/-! DEFINITION. Which instructions an encoding can hold: every immediate and offset lies in the signed range of its
field (spec/30_encoding.md R53: imm5 -16..+15, offset6 -32..+31, PCoffset9 -256..+255, PCoffset11 -1024..+1023).
Register operands need no check: every 3-bit field names a register (spec/10_state.md R11). -/

namespace Sys2Proof

/-- The signed value of the word lies in `lo .. hi`. -/
def signedWithin (lo hi : Int) (v : Word) : Bool := decide (lo ≤ v.toInt) && decide (v.toInt ≤ hi)

/-- The range of imm5. -/
def fitsImm5 (v : Word) : Bool := signedWithin (-16) 15 v

/-- The range of offset6. -/
def fitsOffset6 (v : Word) : Bool := signedWithin (-32) 31 v

/-- The range of PCoffset9. -/
def fitsOffset9 (v : Word) : Bool := signedWithin (-256) 255 v

/-- The range of PCoffset11. -/
def fitsOffset11 (v : Word) : Bool := signedWithin (-1024) 1023 v

/-- An instruction is well formed when each of its operands fits its field. -/
def Instr.wellFormed : Instr → Bool
  | .addReg _ _ _ => true
  | .addImm _ _ imm => fitsImm5 imm
  | .andReg _ _ _ => true
  | .andImm _ _ imm => fitsImm5 imm
  | .notReg _ _ => true
  | .br _ _ _ off => fitsOffset9 off
  | .jmp _ => true
  | .jsr off => fitsOffset11 off
  | .jsrr _ => true
  | .ld _ off => fitsOffset9 off
  | .ldi _ off => fitsOffset9 off
  | .ldr _ _ off => fitsOffset6 off
  | .lea _ off => fitsOffset9 off
  | .st _ off => fitsOffset9 off
  | .sti _ off => fitsOffset9 off
  | .str _ _ off => fitsOffset6 off
  | .trapGetc => true
  | .trapOut => true
  | .trapPuts => true
  | .trapIn => true
  | .trapPutsp => true
  | .trapHalt => true
  | .rti => true
  | .res => true

end Sys2Proof
end

