-- ==== Sys2Proof/Decode.lean ====
section
/-! DEFINITION. Words to instructions and back (spec/30_encoding.md R50 to R57). `decode` is R55: total, a function
of the word alone, reading the fields of R51 and ignoring the bits of R56. `encode` is written from the formats of
R52 and the conventional unread bits of R60. -/

namespace Sys2Proof

/-- `sext_n` of R53: two's-complement widening of an n-bit field to a word. -/
def sext {n : Nat} (v : BitVec n) : Word := v.signExtend 16

/-- The register a 3-bit field names (R51, R11). -/
def Reg.ofBits (b : BitVec 3) : Reg :=
  match b.toNat with
  | 0 => .r0
  | 1 => .r1
  | 2 => .r2
  | 3 => .r3
  | 4 => .r4
  | 5 => .r5
  | 6 => .r6
  | _ => .r7

/-- The 3-bit field that names a register. -/
def Reg.toBits : Reg → BitVec 3
  | .r0 => 0
  | .r1 => 1
  | .r2 => 2
  | .r3 => 3
  | .r4 => 4
  | .r5 => 5
  | .r6 => 6
  | .r7 => 7

/-! The fields of R51. The roles of the three register fields are PRESUMED (decision D2, log 3). -/

/-- `opcode`, IR[15:12]. -/
def opcodeField (w : Word) : BitVec 4 := w.extractLsb' 12 4

/-- IR[11:9]: DR, or SR of a store. -/
def fieldDR (w : Word) : Reg := .ofBits (w.extractLsb' 9 3)

/-- IR[8:6]: SR1, or BaseR. -/
def fieldSR1 (w : Word) : Reg := .ofBits (w.extractLsb' 6 3)

/-- IR[2:0]: SR2. -/
def fieldSR2 (w : Word) : Reg := .ofBits (w.extractLsb' 0 3)

/-- `imm`, IR[5]: the immediate-mode flag of ADD and AND. -/
def immFlag (w : Word) : Bool := w.getLsbD 5

/-- sext_5(IR[4:0]). -/
def fieldImm5 (w : Word) : Word := sext (w.extractLsb' 0 5)

/-- sext_6(IR[5:0]). -/
def fieldOffset6 (w : Word) : Word := sext (w.extractLsb' 0 6)

/-- sext_9(IR[8:0]). -/
def fieldOffset9 (w : Word) : Word := sext (w.extractLsb' 0 9)

/-- sext_11(IR[10:0]). -/
def fieldOffset11 (w : Word) : Word := sext (w.extractLsb' 0 11)

/-- trapvect8, IR[7:0], unsigned. -/
def trapVector (w : Word) : BitVec 8 := w.extractLsb' 0 8

/-- R54: the opcode a 4-bit field selects, by the parameters `OP_<mnemonic>`. All 16 values are assigned (R57), so
the last one needs no test. -/
def opcodeOf (b : BitVec 4) : Opcode :=
  if b = config.opBR then .br
  else if b = config.opADD then .add
  else if b = config.opLD then .ld
  else if b = config.opST then .st
  else if b = config.opJSR then .jsr
  else if b = config.opAND then .and
  else if b = config.opLDR then .ldr
  else if b = config.opSTR then .str
  else if b = config.opRTI then .rti
  else if b = config.opNOT then .not
  else if b = config.opLDI then .ldi
  else if b = config.opSTI then .sti
  else if b = config.opJMP then .jmp
  else if b = config.opRES then .res
  else if b = config.opLEA then .lea
  else .trap

/-- R59: six vectors are defined; any other is rejected by name. -/
def decodeTrap (v : BitVec 8) : Decoded :=
  if v = 0x20 then .instr .trapGetc
  else if v = 0x21 then .instr .trapOut
  else if v = 0x22 then .instr .trapPuts
  else if v = 0x23 then .instr .trapIn
  else if v = 0x24 then .instr .trapPutsp
  else if v = 0x25 then .instr .trapHalt
  else .undefinedTrap v

/-- R55: every word decodes to exactly one of the forms, chosen by the opcode, then by IR[5] for ADD and AND, by the
long flag for opcode JSR, by the vector for TRAP. -/
def decode (w : Word) : Decoded :=
  match opcodeOf (opcodeField w) with
  | .br =>
    .instr (.br (w.getLsbD config.brNBit) (w.getLsbD config.brZBit) (w.getLsbD config.brPBit) (fieldOffset9 w))
  | .add =>
    if immFlag w then .instr (.addImm (fieldDR w) (fieldSR1 w) (fieldImm5 w))
    else .instr (.addReg (fieldDR w) (fieldSR1 w) (fieldSR2 w))
  | .ld => .instr (.ld (fieldDR w) (fieldOffset9 w))
  | .st => .instr (.st (fieldDR w) (fieldOffset9 w))
  | .jsr =>
    if w.getLsbD config.jsrLongBit then .instr (.jsr (fieldOffset11 w)) else .instr (.jsrr (fieldSR1 w))
  | .and =>
    if immFlag w then .instr (.andImm (fieldDR w) (fieldSR1 w) (fieldImm5 w))
    else .instr (.andReg (fieldDR w) (fieldSR1 w) (fieldSR2 w))
  | .ldr => .instr (.ldr (fieldDR w) (fieldSR1 w) (fieldOffset6 w))
  | .str => .instr (.str (fieldDR w) (fieldSR1 w) (fieldOffset6 w))
  | .rti => .instr .rti
  | .not => .instr (.notReg (fieldDR w) (fieldSR1 w))
  | .ldi => .instr (.ldi (fieldDR w) (fieldOffset9 w))
  | .sti => .instr (.sti (fieldDR w) (fieldOffset9 w))
  | .jmp => .instr (.jmp (fieldSR1 w))
  | .res => .instr .res
  | .lea => .instr (.lea (fieldDR w) (fieldOffset9 w))
  | .trap => decodeTrap (trapVector w)

/-- The decoder on a word of spec/opcode_table.json: an instruction is one 16-bit word (R50), its bits numbered as
the table numbers them, and the hardware has no byte order to lay out (spec/20_memory.md R38). -/
def decodeTableWord (nbits w : Nat) : Option Instr :=
  match decode (BitVec.ofNat 16 (w % 2 ^ nbits)) with
  | .instr i => some i
  | .undefinedTrap _ => none

/-! The encoder. -/

/-- A field of an instruction word, its lowest bit at position `lo` (R51). -/
def place {n : Nat} (lo : Nat) (v : BitVec n) : Word := v.setWidth 16 <<< lo

/-- OP-REG (R52). -/
def encodeOpReg (op : BitVec 4) (dr sr1 sr2 : Reg) : Word :=
  place 12 op ||| place 9 dr.toBits ||| place 6 sr1.toBits ||| place 0 sr2.toBits

/-- OP-IMM (R52). -/
def encodeOpImm (op : BitVec 4) (dr sr1 : Reg) (imm : Word) : Word :=
  place 12 op ||| place 9 dr.toBits ||| place 6 sr1.toBits ||| place 5 1#1 ||| place 0 (imm.setWidth 5)

/-- NOT (R52), bits 5:0 as R60 emits them. -/
def encodeNot (op : BitVec 4) (dr sr : Reg) : Word :=
  place 12 op ||| place 9 dr.toBits ||| place 6 sr.toBits ||| place 0 0b111111#6

/-- BR (R52). -/
def encodeBr (op : BitVec 4) (n z p : Bool) (off : Word) : Word :=
  place 12 op ||| place config.brNBit (BitVec.ofBool n) ||| place config.brZBit (BitVec.ofBool z) |||
    place config.brPBit (BitVec.ofBool p) ||| place 0 (off.setWidth 9)

/-- PCREL (R52). -/
def encodePcRel (op : BitVec 4) (r : Reg) (off : Word) : Word :=
  place 12 op ||| place 9 r.toBits ||| place 0 (off.setWidth 9)

/-- BASEOFF (R52). -/
def encodeBaseOff (op : BitVec 4) (r base : Reg) (off : Word) : Word :=
  place 12 op ||| place 9 r.toBits ||| place 6 base.toBits ||| place 0 (off.setWidth 6)

/-- JSR (R52): the long flag set. -/
def encodeJsr (op : BitVec 4) (off : Word) : Word :=
  place 12 op ||| place config.jsrLongBit 1#1 ||| place 0 (off.setWidth 11)

/-- JMP and JSRR (R52): the long flag of JSRR is clear, as are the unread bits. -/
def encodeBase (op : BitVec 4) (base : Reg) : Word := place 12 op ||| place 6 base.toBits

/-- TRAP (R52). -/
def encodeTrap (op : BitVec 4) (v : BitVec 8) : Word := place 12 op ||| place 0 v

/-- NONE (R52). -/
def encodeNone (op : BitVec 4) : Word := place 12 op

/-- The word of an instruction, unread bits as R60 emits them (0, but 1 in bits 5:0 of NOT). -/
def encode : Instr → Word
  | .addReg dr sr1 sr2 => encodeOpReg config.opADD dr sr1 sr2
  | .addImm dr sr1 imm => encodeOpImm config.opADD dr sr1 imm
  | .andReg dr sr1 sr2 => encodeOpReg config.opAND dr sr1 sr2
  | .andImm dr sr1 imm => encodeOpImm config.opAND dr sr1 imm
  | .notReg dr sr => encodeNot config.opNOT dr sr
  | .br n z p off => encodeBr config.opBR n z p off
  | .jmp base => encodeBase config.opJMP base
  | .jsr off => encodeJsr config.opJSR off
  | .jsrr base => encodeBase config.opJSR base
  | .ld dr off => encodePcRel config.opLD dr off
  | .ldi dr off => encodePcRel config.opLDI dr off
  | .ldr dr base off => encodeBaseOff config.opLDR dr base off
  | .lea dr off => encodePcRel config.opLEA dr off
  | .st sr off => encodePcRel config.opST sr off
  | .sti sr off => encodePcRel config.opSTI sr off
  | .str sr base off => encodeBaseOff config.opSTR sr base off
  | .trapGetc => encodeTrap config.opTRAP 0x20
  | .trapOut => encodeTrap config.opTRAP 0x21
  | .trapPuts => encodeTrap config.opTRAP 0x22
  | .trapIn => encodeTrap config.opTRAP 0x23
  | .trapPutsp => encodeTrap config.opTRAP 0x24
  | .trapHalt => encodeTrap config.opTRAP 0x25
  | .rti => encodeNone config.opRTI
  | .res => encodeNone config.opRES

end Sys2Proof
end

