-- ==== Sys2Proof/Machine/State.lean ====
section
/-! DEFINITION. The state of the core (spec/10_state.md section 1) as plain data, the outcomes of a step, and the
state right after reset (R25, spec/70_reset_and_hazards.md R150). -/

namespace Sys2Proof.Machine

/-- The register file R0 to R7 (R11). Read and written through `Regs.get` and `Regs.set` only. -/
structure Regs where
  r0 : Word
  r1 : Word
  r2 : Word
  r3 : Word
  r4 : Word
  r5 : Word
  r6 : Word
  r7 : Word
deriving DecidableEq, Repr

/-- The memory array (R18) as the list of the words that differ from `RESET_MEM`: (address, word), addresses
strictly rising (`Memory.wf`). A cell is a whole word because the word is the smallest addressable unit
(spec/20_memory.md R30; log 1). -/
abbrev Memory := List (Nat × Word)

/-- The two causes of the decode fault (spec/60_exceptions.md R130). -/
inductive FaultCause where
  | reservedOpcode
  | badTrapVector
deriving DecidableEq, Repr

/-- RUN (R21): the state of the execution loop. A fault is recorded with its cause, the instruction word and the
instruction's address (R130, decision D21). -/
inductive RunState where
  | running
  | halted
  | faulted (cause : FaultCause) (ir addr : Word)
deriving DecidableEq, Repr

/-- The state. `regs`, `pc`, `cond`, `mem`, `run`, `ir` are the core's (R24: there is no other); `keyIn`,
`keyPolls`, `pollCount`, `console` are its environment as the model holds it (R23, decision D22; log 25). -/
structure State where
  /-- R0 to R7 (R11). -/
  regs : Regs
  /-- The program counter (R13). -/
  pc : Word
  /-- COND (R14). -/
  cond : Cond
  /-- M[0..65535], the two mapped words KBSR and KBDR among them (R18, R19, R20). -/
  mem : Memory
  /-- RUN (R21). -/
  run : RunState
  /-- IR, the instruction latch (R22). -/
  ir : Word
  /-- The characters `KbdRead()` will still deliver, oldest first (R23). -/
  keyIn : List Byte
  /-- The answers the environment gives to the next calls of `KbdAvail()`, in call order (R23). -/
  keyPolls : List Bool
  /-- How many times `KbdAvail()` was called; the model's own counter for `Config.freePoll`. -/
  pollCount : Nat
  /-- The bytes sent by `ConOut`, oldest first (R23). -/
  console : List Byte
deriving DecidableEq, Repr

/-- Why a step ends in a fault. -/
inductive Fault where
  /-- Raised by `step` at a core whose RUN is Faulted (R21, R131: Faulted is terminal and no later step exists). It
  shows the record of RUN. Safe: the spec gives the machine no step here. -/
  | decodeFault (cause : FaultCause) (ir addr : Word)
  /-- Raised by PUTS and PUTSP when the string walk does not end within the reads that `stringFuel` allows
  (R122: a step that runs forever never completes). No state of the model reaches it, since its input stream is
  finite (`Laws.putsWalk_ends`, `Laws.putspWalk_ends` in Laws/Strings.lean). Safe: the model would stop where the hardware never ends. -/
  | endlessString
deriving DecidableEq, Repr

/-- Why a step is refused. -/
inductive Refusal where
  /-- An arm of `exec` without a meaning yet. Safe: no claim can be made about a step that is refused. -/
  | notModelled (mnemonic : String)
  /-- Raised by `step` at a core whose RUN is Halted (R21, R162: Halted is terminal and no step follows). Safe: the
  spec gives the machine no step here. -/
  | halted
deriving DecidableEq, Repr

/-- The outcome of one instruction or step. -/
abbrev Result := Host.Outcome State Fault Refusal

/-- The state after R150 (1) and with RUN as R150 (3) leaves it, no image loaded yet: registers `RESET_GPR`, COND
`RESET_COND`, every memory word `RESET_MEM`, RUN Running, console output empty. The image load that R150 (2)
prescribes, which also sets the PC, is `boot`. DESIGN CHOICE: PC 0x0000 before any image (log 14), IR 0x0000
(log 15), no input pending and no poll answers listed (log 25). -/
def State.reset : State where
  regs := ⟨config.resetGpr, config.resetGpr, config.resetGpr, config.resetGpr,
    config.resetGpr, config.resetGpr, config.resetGpr, config.resetGpr⟩
  pc := 0x0000
  cond := config.resetCond
  mem := []
  run := .running
  ir := 0x0000
  keyIn := []
  keyPolls := []
  pollCount := 0
  console := []

end Sys2Proof.Machine
end

