-- ==== Sys2Proof/Machine/Memory.lean ====
section
/-! DEFINITION. The raw memory array (spec/10_state.md R18): `M[a]` and `M[a] <- v`, with no side effect, over the
canonical list of words. -/

namespace Sys2Proof.Machine

/-- What an address that is not listed reads as: `RESET_MEM` (decision D12, log 13). -/
def Memory.blank : Word := config.resetMem

/-- `M[a]` on the list. -/
def Memory.read : Memory → Nat → Word
  | [], _ => Memory.blank
  | c :: m, a => if c.1 = a then c.2 else Memory.read m a

/-- The list without address `a`. -/
def Memory.erase (m : Memory) (a : Nat) : Memory := m.filter (fun c => c.1 != a)

/-- The list with `(a, v)` put before the first higher address. -/
def Memory.insert : Memory → Nat → Word → Memory
  | [], a, v => [(a, v)]
  | c :: m, a, v => if a < c.1 then (a, v) :: c :: m else c :: Memory.insert m a v

/-- `M[a] <- v` on the list; writing the blank value removes the entry, so that equal memories are equal lists. -/
def Memory.write (m : Memory) (a : Nat) (v : Word) : Memory :=
  if v = Memory.blank then Memory.erase m a else Memory.insert (Memory.erase m a) a v

/-- The canonical form: addresses strictly rising, below 65,536, no entry equal to the blank value. -/
def Memory.wf : Memory → Bool
  | [] => true
  | c :: m =>
    decide (c.1 < 65536) && decide (c.2 ≠ Memory.blank) && m.all (fun d => decide (c.1 < d.1)) && Memory.wf m

/-- `M[a]` for a word address. -/
def State.cell (s : State) (a : Word) : Word := Memory.read s.mem a.toNat

/-- `M[a] <- v` for a word address. -/
def State.setCell (s : State) (a v : Word) : State := { s with mem := Memory.write s.mem a.toNat v }

end Sys2Proof.Machine
end

