-- ==== Sys2Proof/Machine/Ops.lean ====
section
/-! DEFINITION. The shared operations every instruction is made of: general registers (spec/10_state.md R11), the two
memory primitives with the keyboard interception (spec/20_memory.md R31 to R36), the three environment
capabilities (R23), the fetch phase (R26), and fault entry (spec/60_exceptions.md R131). There is no return from a
fault or from a trap: nothing is saved and RTI is a reserved opcode (R136). -/

namespace Sys2Proof.Machine

/-! Registers. -/

/-- Read one register of the file (R11). -/
def Regs.get (g : Regs) : Reg → Word
  | .r0 => g.r0
  | .r1 => g.r1
  | .r2 => g.r2
  | .r3 => g.r3
  | .r4 => g.r4
  | .r5 => g.r5
  | .r6 => g.r6
  | .r7 => g.r7

/-- Overwrite one register of the file (R11). -/
def Regs.set (g : Regs) (r : Reg) (v : Word) : Regs :=
  match r with
  | .r0 => { g with r0 := v }
  | .r1 => { g with r1 := v }
  | .r2 => { g with r2 := v }
  | .r3 => { g with r3 := v }
  | .r4 => { g with r4 := v }
  | .r5 => { g with r5 := v }
  | .r6 => { g with r6 := v }
  | .r7 => { g with r7 := v }

/-- `R[i]`. -/
def State.reg (s : State) (r : Reg) : Word := s.regs.get r

/-- `R[i] <- v`. -/
def State.setReg (s : State) (r : Reg) (v : Word) : State := { s with regs := s.regs.set r v }

/-- `pc <- t`. -/
def State.setPc (s : State) (t : Word) : State := { s with pc := t }

/-! Bytes of a word and words of a byte (R6, R38). -/

/-- `w[7:0]`. -/
def lowByte (w : Word) : Byte := w.extractLsb' 0 8

/-- `w[15:8]`. -/
def highByte (w : Word) : Byte := w.extractLsb' 8 8

/-- `zext_8(c)`: a character "widened to a word with high byte zero" (R23). -/
def zext8 (c : Byte) : Word := c.setWidth 16

/-! The environment (R23). -/

/-- `ConOut(b)`: append one byte to the console output. -/
def State.conOut (s : State) (b : Byte) : State := { s with console := s.console ++ [b] }

/-- `KbdRead()`: the next character and the state that has consumed it; none while no character is there. -/
def kbdRead (s : State) : Option (Byte × State) :=
  match s.keyIn with
  | [] => none
  | c :: rest => some (c, { s with keyIn := rest })

/-- The environment's free answer to the next `KbdAvail()`: the one the state lists, else the free value. -/
def freeAnswer (s : State) : Bool :=
  match s.keyPolls with
  | b :: _ => b
  | [] => Config.freePoll s.pollCount

/-- `KbdAvail()`: the free answer, under the one constraint of R23 and decision D22 that it is true only where the
`KbdRead()` that follows returns at once, that is, where a character is there. -/
def kbdAvail (s : State) : Bool := !s.keyIn.isEmpty && freeAnswer s

/-- One call of `KbdAvail()` has been made. -/
def State.pollMade (s : State) : State :=
  { s with keyPolls := s.keyPolls.tail, pollCount := s.pollCount + 1 }

/-! Memory (R31 to R36). -/

/-- The ready case of R31: the status word becomes `KBSR_READY` of itself, the character goes to the data word. -/
def storeKey (s : State) (c : Byte) : State :=
  (s.setCell config.kbsrAddr (config.kbsrReady (s.cell config.kbsrAddr))).setCell config.kbdrAddr (zext8 c)

/-- The poll that a read of KBSR_ADDR performs first (R31, R33). -/
def pollKeyboard (s : State) : State :=
  match kbdAvail s, kbdRead s.pollMade with
  | true, some (c, s') => storeKey s' c
  | _, _ => s.pollMade.setCell config.kbsrAddr 0

/-- `MemRead(a, 1)` (R31): the word and the state after the poll, if there was one. -/
def memRead (s : State) (a : Word) : Word × State :=
  let s' := if a = config.kbsrAddr then pollKeyboard s else s
  (s'.cell a, s')

/-- `MemWrite(a, 1, v)` (R32): no side effect, no check, no fault. -/
def memWrite (s : State) (a v : Word) : State := s.setCell a v

/-! The fetch phase (R26). -/

/-- IR <- MemRead(pc, 1); pc <- pc + 1. -/
def fetch (s : State) : State :=
  let r := memRead s s.pc
  { r.2 with ir := r.1, pc := s.pc + 1 }

/-! Fault entry (R131). -/

/-- `raise Fault(cause, info)`: RUN becomes Faulted with the instruction word and its address `pc - 1` (R130), and
nothing else changes. The run ends; there is no handler to go to (R135). -/
def raiseFault (cause : FaultCause) (s : State) : State :=
  { s with run := .faulted cause s.ir (s.pc - 1) }

end Sys2Proof.Machine
end

