-- ==== Sys2Proof/Machine/Flags.lean ====
section
/-! DEFINITION. The condition flags: the code of COND (spec/10_state.md R14), `setcc` (R15), and the test BR makes
(spec/41_control.md R80). -/

namespace Sys2Proof.Machine

/-- The 3-bit one-hot code of COND (R14). -/
def condCode : Cond → BitVec 3
  | .neg => config.flN
  | .zero => config.flZ
  | .pos => config.flP

/-- The flag that describes a value (R15): Zero if it is 0, Negative if bit 15 is set, else Positive. -/
def flagOf (v : Word) : Cond :=
  if v = 0 then .zero else if v.getLsbD 15 then .neg else .pos

/-- `setcc(i)` (R15). -/
def setcc (s : State) (r : Reg) : State := { s with cond := flagOf (s.reg r) }

/-- `R[DR] <- v; setcc(DR)`, the end of each of the seven flag-setting instructions (R16). -/
def writeResult (s : State) (dr : Reg) (v : Word) : State := setcc (s.setReg dr v) dr

/-- The 3-bit condition mask of BR, n above z above p (R51). -/
def branchMask (n z p : Bool) : BitVec 3 := BitVec.ofBool n ++ BitVec.ofBool z ++ BitVec.ofBool p

/-- "a bitwise AND-and-nonzero test between the instruction's 3-bit condition field and the current single-flag
value" (R80). -/
def branchTaken (n z p : Bool) (c : Cond) : Bool := decide (branchMask n z p &&& condCode c ≠ 0)

end Sys2Proof.Machine
end

