-- ==== Sys2Proof/Machine/Operands.lean ====
section
/-! DEFINITION. The ways to form an operand address (spec/42_load.md R94); sums are modulo 65536 (spec/20_memory.md
R37). The immediate operand is the sign-extended field itself, already in the instruction. -/

namespace Sys2Proof.Machine

/-- PC-relative: the incremented PC plus the offset. -/
def pcRelative (s : State) (off : Word) : Word := s.pc + off

/-- Indirect: the word read at the PC-relative address is the address. -/
def indirect (s : State) (off : Word) : Word × State := memRead s (pcRelative s off)

/-- Base + offset. -/
def baseOffset (s : State) (base : Reg) (off : Word) : Word := s.reg base + off

end Sys2Proof.Machine
end

