-- ==== Sys2Proof/Machine/Control.lean ====
section
/-! DEFINITION. BR, JMP (RET), JSR, JSRR (spec/41_control.md R80 to R85). The PC of the state is already incremented. -/

namespace Sys2Proof.Machine

/-- The return address to R7, which JSR and JSRR write first (R83, R84). -/
def linkR7 (s : State) : State := s.setReg .r7 s.pc

/-- BR (R80). -/
def execBr (n z p : Bool) (off : Word) (s : State) : Result :=
  .next (if branchTaken n z p s.cond then s.setPc (pcRelative s off) else s)

/-- JMP, and RET when the base is R7 (R81, R82). -/
def execJmp (base : Reg) (s : State) : Result := .next (s.setPc (s.reg base))

/-- JSR (R83). -/
def execJsr (off : Word) (s : State) : Result := .next ((linkR7 s).setPc (pcRelative s off))

/-- JSRR (R84): R7 is written before the base register is read, so JSRR R7 goes on at the next word (decision
D20, log 23). -/
def execJsrr (base : Reg) (s : State) : Result := .next ((linkR7 s).setPc ((linkR7 s).reg base))

end Sys2Proof.Machine
end

