-- ==== Sys2Proof/Machine/Load.lean ====
section
/-! DEFINITION. LD, LDI, LDR, LEA (spec/42_load.md R90 to R95). -/

namespace Sys2Proof.Machine

/-- `R[DR] <- MemRead(ea, 1); setcc(DR)`. -/
def loadFrom (s : State) (dr : Reg) (ea : Word) : State := writeResult (memRead s ea).2 dr (memRead s ea).1

/-- LD (R90). -/
def execLd (dr : Reg) (off : Word) (s : State) : Result := .next (loadFrom s dr (pcRelative s off))

/-- LDI (R91): the pointer is read first, then the data, both through the interception. -/
def execLdi (dr : Reg) (off : Word) (s : State) : Result :=
  .next (loadFrom (indirect s off).2 dr (indirect s off).1)

/-- LDR (R92). -/
def execLdr (dr base : Reg) (off : Word) (s : State) : Result := .next (loadFrom s dr (baseOffset s base off))

/-- LEA (R93): the address itself, memory not read, flags set from it. -/
def execLea (dr : Reg) (off : Word) (s : State) : Result := .next (writeResult s dr (pcRelative s off))

end Sys2Proof.Machine
end

