-- ==== Sys2Proof/Machine/Operate.lean ====
section
/-! DEFINITION. ADD, AND, NOT (spec/40_operate.md R70 to R76): sources read before the destination is written,
results modulo 65536, COND from the result. -/

namespace Sys2Proof.Machine

/-- ADD, register mode (R70). -/
def execAddReg (dr sr1 sr2 : Reg) (s : State) : Result := .next (writeResult s dr (s.reg sr1 + s.reg sr2))

/-- ADD, immediate mode (R71). -/
def execAddImm (dr sr1 : Reg) (imm : Word) (s : State) : Result := .next (writeResult s dr (s.reg sr1 + imm))

/-- AND, register mode (R72). -/
def execAndReg (dr sr1 sr2 : Reg) (s : State) : Result := .next (writeResult s dr (s.reg sr1 &&& s.reg sr2))

/-- AND, immediate mode, with the sign-extended immediate (R73; spec/90_conflicts.md C1). -/
def execAndImm (dr sr1 : Reg) (imm : Word) (s : State) : Result := .next (writeResult s dr (s.reg sr1 &&& imm))

/-- NOT (R74). -/
def execNot (dr sr : Reg) (s : State) : Result := .next (writeResult s dr (~~~ s.reg sr))

end Sys2Proof.Machine
end

