-- ==== Sys2Proof/Machine/Reserved.lean ====
section
/-! DEFINITION. The reserved opcodes RTI and RES (spec/44_trap_reserved.md R118, R119): each takes the decode fault of
spec/60_exceptions.md R131. -/

namespace Sys2Proof.Machine

/-- RTI (R118). -/
def execRti (s : State) : Result := .next (raiseFault .reservedOpcode s)

/-- RES (R119). -/
def execRes (s : State) : Result := .next (raiseFault .reservedOpcode s)

end Sys2Proof.Machine
end

