-- ==== Sys2Proof/Machine/Store.lean ====
section
/-! DEFINITION. ST, STI, STR (spec/43_store.md R100 to R103). -/

namespace Sys2Proof.Machine

/-- ST (R100). -/
def execSt (sr : Reg) (off : Word) (s : State) : Result := .next (memWrite s (pcRelative s off) (s.reg sr))

/-- STI (R101): one read, of the pointer, through the interception, then one write. -/
def execSti (sr : Reg) (off : Word) (s : State) : Result :=
  .next (memWrite (indirect s off).2 (indirect s off).1 ((indirect s off).2.reg sr))

/-- STR (R102). -/
def execStr (sr base : Reg) (off : Word) (s : State) : Result :=
  .next (memWrite s (baseOffset s base off) (s.reg sr))

end Sys2Proof.Machine
end

