-- ==== Sys2Proof/Machine/Trap.lean ====
section
/-! DEFINITION. TRAP and its six built-in routines (spec/44_trap_reserved.md R110 to R117, R120 to R122) and the hold
of GETC and IN (spec/60_exceptions.md R143). -/

namespace Sys2Proof.Machine

/-- What a TRAP does before its routine: nothing, unless `TRAP_LINKS_R7` (R120, decision D13, log 16). -/
def trapEntry (s : State) : State := if config.trapLinksR7 then s.setReg .r7 s.pc else s

/-- `R[0] <- zext_8(c)`; COND is left alone, unless `TRAP_INPUT_SETS_FLAGS` (R111, R120, decision D14, log 17). -/
def storeChar (s : State) (c : Byte) : State :=
  if config.trapInputSetsFlags then setcc (s.setReg .r0 (zext8 c)) .r0 else s.setReg .r0 (zext8 c)

/-- The instruction waits (R143): none of its effects happens and the PC is back at it, so that the core comes to it
again. `step` asks `awaitsKey` first and leaves the whole state as it was (log 26). -/
def hold (s : State) : State := s.setPc (s.pc - 1)

/-- The enabling condition of TRAP x20 and x23 fails (R143): the environment has supplied no character. -/
def awaitsKey (i : Instr) (s : State) : Bool := (i == .trapGetc || i == .trapIn) && s.keyIn.isEmpty

/-- GETC (R111). -/
def execTrapGetc (s : State) : Result :=
  match kbdRead s with
  | none => .next (hold s)
  | some (c, s') => .next (storeChar (trapEntry s') c)

/-- OUT (R112). -/
def execTrapOut (s : State) : Result := .next ((trapEntry s).conOut (lowByte ((trapEntry s).reg .r0)))

/-- How many reads a string routine may make before the walk of a finite input stream must have ended: every
65,536 reads in a row meet KBSR_ADDR once, and each poll there either finds a key and consumes it or stores the zero
word that ends the string (R122). -/
def stringFuel (s : State) : Nat := 65536 * (s.keyIn.length + 1)

/-- The loop of PUTS (R113), `n` reads at most. -/
def putsWalk : Nat → Word → State → Option State
  | 0, _, _ => none
  | n + 1, a, s =>
    let r := memRead s a
    if r.1 = 0 then some r.2 else putsWalk n (a + 1) (r.2.conOut (lowByte r.1))

/-- PUTS (R113). -/
def execTrapPuts (s : State) : Result :=
  match putsWalk (stringFuel (trapEntry s)) ((trapEntry s).reg .r0) (trapEntry s) with
  | some s' => .next s'
  | none => .fault .endlessString

/-- IN (R114): the echo first, then the store; no prompt (decision D23, log 27). -/
def execTrapIn (s : State) : Result :=
  match kbdRead s with
  | none => .next (hold s)
  | some (c, s') => .next (storeChar ((trapEntry s').conOut c) c)

/-- The loop of PUTSP (R115), `n` reads at most. -/
def putspWalk : Nat → Word → State → Option State
  | 0, _, _ => none
  | n + 1, a, s =>
    let r := memRead s a
    if lowByte r.1 = 0 then some r.2
    else if highByte r.1 = 0 then some (r.2.conOut (lowByte r.1))
    else putspWalk n (a + 1) ((r.2.conOut (lowByte r.1)).conOut (highByte r.1))

/-- PUTSP (R115). -/
def execTrapPutsp (s : State) : Result :=
  match putspWalk (stringFuel (trapEntry s)) ((trapEntry s).reg .r0) (trapEntry s) with
  | some s' => .next s'
  | none => .fault .endlessString

/-- HALT (R116): the message, byte by byte, then RUN becomes Halted. -/
def execTrapHalt (s : State) : Result :=
  .next { config.haltMsg.foldl State.conOut (trapEntry s) with run := .halted }

/-- TRAP with one of the 250 undefined vectors (R117): the fault, whatever the vector. -/
def execUndefinedTrap (_vect : BitVec 8) (s : State) : Result := .next (raiseFault .badTrapVector (trapEntry s))

end Sys2Proof.Machine
end

