-- ==== Sys2Proof/Machine/Step.lean ====
section
/-! DEFINITION. One step of the core (spec/10_state.md R26) and the placing of a word where it fetches next. -/

namespace Sys2Proof.Machine

/-- R26: only a Running core takes a step (R21); fetch, increment, decode, execute. While GETC or IN waits for a
character the core takes no step and nothing changes, the fetch included (spec/60_exceptions.md R143, vector
V-HOLD-1): the step then answers the state it was given (log 26). -/
def step (s : State) : Host.Outcome State Fault Refusal :=
  match s.run with
  | .halted => .refused .halted
  | .faulted cause ir addr => .fault (.decodeFault cause ir addr)
  | .running =>
    match decode (fetch s).ir with
    | .undefinedTrap vect => execUndefinedTrap vect (fetch s)
    | .instr i => if awaitsKey i (fetch s) then .next s else exec i (fetch s)

/-- The state with the word placed where the next step fetches: RUN Running and the word at the PC, as an image load
would leave them (spec/70_reset_and_hazards.md R151; log 14). A fetch from KBSR_ADDR returns a polled word and not a
stored one (spec/20_memory.md R36), so a core that stands there is moved to the next address. -/
def State.withFetchWord (s : State) (nbits w : Nat) : State :=
  let s' := { s with run := .running, pc := if s.pc = config.kbsrAddr then s.pc + 1 else s.pc }
  s'.setCell s'.pc (BitVec.ofNat 16 (w % 2 ^ nbits))

end Sys2Proof.Machine
end

