-- ==== Sys2Proof/Machine/Boot.lean ====
section
/-! DEFINITION. The boot interface (spec/70_reset_and_hazards.md R150 to R154) and what the host may do between steps
(R156). -/

namespace Sys2Proof.Machine

/-- Why a run does not start. -/
inductive BootError where
  /-- R151, R152: no origin, an odd number of bytes, or words past address 65535. -/
  | imageFormat
  /-- R153: "usage error: no image given". -/
  | noImage
deriving DecidableEq, Repr

/-- The big-endian words of a byte sequence (R151); an odd last byte makes no word. -/
def imageWords : List Byte → List Word
  | hi :: lo :: rest => (hi ++ lo) :: imageWords rest
  | _ => []

/-- Plain array writes of successive words from address `a` (R151): no interception. -/
def placeWords (m : Memory) (a : Nat) : List Word → Memory
  | [] => m
  | w :: ws => placeWords (Memory.write m a w) (a + 1) ws

/-- `LoadImage(b)` (R151), all checks before any write (decision D25, log 28). -/
def loadImage (bytes : List Byte) (s : State) : Except BootError State :=
  match bytes with
  | hi :: lo :: payload =>
    if payload.length % 2 = 1 then .error .imageFormat
    else if (hi ++ lo).toNat + payload.length / 2 > 65536 then .error .imageFormat
    else .ok { s with mem := placeWords s.mem (hi ++ lo).toNat (imageWords payload), pc := hi ++ lo }
  | _ => .error .imageFormat

/-- The images one after the other, in the order given (R153). -/
def loadImages : List (List Byte) → State → Except BootError State
  | [], s => .ok s
  | b :: bs, s =>
    match loadImage b s with
    | .ok s' => loadImages bs s'
    | .error e => .error e

/-- The whole start of a run (R150): fresh registers and memory, the images, PC at the last image's origin. -/
def boot (images : List (List Byte)) : Except BootError State :=
  if images.isEmpty then .error .noImage else loadImages images State.reset

/-- The environment supplies further characters, between two steps (R156). -/
def State.supplyKeys (s : State) (cs : List Byte) : State := { s with keyIn := s.keyIn ++ cs }

end Sys2Proof.Machine
end

