-- ==== Sys2Proof/Safety.lean ====
section
/-! DEFINITION. The terms the claims are stated in: the invariant of the machine, what a run reaches, how a run ends,
what two states agree on, and the loops of PUTS and PUTSP as the spec writes them, without a bound. -/

namespace Sys2Proof.Machine

/-! The invariant. -/

/-- RUN tells the truth about the last instruction. Halted: it was TRAP x25 and the console output ends in the
message (spec/70_reset_and_hazards.md R162). Faulted: the record holds the instruction word and its address, and that
word is one that raises the recorded cause (spec/60_exceptions.md R130, R131). -/
def RunRecordOk (s : State) : Prop :=
  match s.run with
  | .running => True
  | .halted => decode s.ir = .instr .trapHalt ∧ config.haltMsg <:+ s.console
  | .faulted .reservedOpcode ir addr =>
    ir = s.ir ∧ addr = s.pc - 1 ∧ (decode ir = .instr .rti ∨ decode ir = .instr .res)
  | .faulted .badTrapVector ir addr =>
    ir = s.ir ∧ addr = s.pc - 1 ∧ ∃ vect, decode ir = .undefinedTrap vect

/-- The invariant: memory keeps its canonical form, and RUN tells the truth. -/
def Inv (s : State) : Prop := Memory.wf s.mem = true ∧ RunRecordOk s

/-! Runs. -/

/-- What a run can reach: by steps, and by the environment supplying characters between steps (R156). -/
inductive Reaches : State → State → Prop where
  | refl (s : State) : Reaches s s
  | step {s t u : State} : Reaches s t → step t = .next u → Reaches s u
  | keys {s t : State} (cs : List Byte) : Reaches s t → Reaches s (t.supplyKeys cs)

/-- The graceful end (R162 (a)). -/
def State.EndsWell (s : State) : Prop := s.run = .halted

/-- The fatal end (R162 (b)): never a successful end of a run (R131). -/
def State.EndsFatally (s : State) : Prop := ∃ cause ir addr, s.run = .faulted cause ir addr

/-- A safe run: no state it reaches is Faulted. -/
def SafeFrom (s : State) : Prop := ∀ t, Reaches s t → ¬ t.EndsFatally

/-! Agreement of two states. -/

/-- Every register but those of the list holds what it held. -/
def SameRegsBut (ds : List Reg) (s t : State) : Prop := ∀ r, r ∉ ds → t.reg r = s.reg r

/-- Every memory word but those at the listed addresses holds what it held. -/
def SameCellsBut (addrs : List Word) (s t : State) : Prop := ∀ a, a ∉ addrs → t.cell a = s.cell a

/-- The keyboard was not touched: no poll, no character consumed. -/
def SameKeyboard (s t : State) : Prop :=
  t.keyIn = s.keyIn ∧ t.keyPolls = s.keyPolls ∧ t.pollCount = s.pollCount

/-- The two states differ at most in what a read through the interception may change: the two mapped words and the
keyboard (spec/20_memory.md R31). -/
def SameButPolls (s t : State) : Prop :=
  t.regs = s.regs ∧ t.pc = s.pc ∧ t.cond = s.cond ∧ t.run = s.run ∧ t.ir = s.ir ∧ t.console = s.console ∧
    SameCellsBut [config.kbsrAddr, config.kbdrAddr] s t

/-! What an instruction may write, by the tables of the spec. -/

/-- The flag that describes a value (spec/10_state.md R15), written apart from the model's `flagOf`: Zero if it is 0,
Negative if its top bit is set, else Positive. -/
def signFlag (v : Word) : Cond := if v = 0x0000 then .zero else if v.msb then .neg else .pos

/-- DR of the seven instructions that end in `setcc(DR)` (R16); none for every other instruction. -/
def flagSource : Instr → Option Reg
  | .addReg dr _ _ => some dr
  | .addImm dr _ _ => some dr
  | .andReg dr _ _ => some dr
  | .andImm dr _ _ => some dr
  | .notReg dr _ => some dr
  | .br _ _ _ _ => none
  | .jmp _ => none
  | .jsr _ => none
  | .jsrr _ => none
  | .ld dr _ => some dr
  | .ldi dr _ => some dr
  | .ldr dr _ _ => some dr
  | .lea dr _ => some dr
  | .st _ _ => none
  | .sti _ _ => none
  | .str _ _ _ => none
  | .trapGetc => none
  | .trapOut => none
  | .trapPuts => none
  | .trapIn => none
  | .trapPutsp => none
  | .trapHalt => none
  | .rti => none
  | .res => none

/-- The general registers an instruction writes (the table of R12): DR of the seven, R7 of JSR and JSRR, R0 of GETC
and IN. -/
def writtenRegs : Instr → List Reg
  | .addReg dr _ _ => [dr]
  | .addImm dr _ _ => [dr]
  | .andReg dr _ _ => [dr]
  | .andImm dr _ _ => [dr]
  | .notReg dr _ => [dr]
  | .br _ _ _ _ => []
  | .jmp _ => []
  | .jsr _ => [.r7]
  | .jsrr _ => [.r7]
  | .ld dr _ => [dr]
  | .ldi dr _ => [dr]
  | .ldr dr _ _ => [dr]
  | .lea dr _ => [dr]
  | .st _ _ => []
  | .sti _ _ => []
  | .str _ _ _ => []
  | .trapGetc => [.r0]
  | .trapOut => []
  | .trapPuts => []
  | .trapIn => [.r0]
  | .trapPutsp => []
  | .trapHalt => []
  | .rti => []
  | .res => []

/-- The addresses an instruction stores to in a state (spec/20_memory.md R46, spec/42_load.md R94). STI stores where
the pointer it reads says. -/
def storedTo (i : Instr) (s : State) : List Word :=
  match i with
  | .addReg _ _ _ => []
  | .addImm _ _ _ => []
  | .andReg _ _ _ => []
  | .andImm _ _ _ => []
  | .notReg _ _ => []
  | .br _ _ _ _ => []
  | .jmp _ => []
  | .jsr _ => []
  | .jsrr _ => []
  | .ld _ _ => []
  | .ldi _ _ => []
  | .ldr _ _ _ => []
  | .lea _ _ => []
  | .st _ off => [pcRelative s off]
  | .sti _ off => [(indirect s off).1]
  | .str _ base off => [baseOffset s base off]
  | .trapGetc => []
  | .trapOut => []
  | .trapPuts => []
  | .trapIn => []
  | .trapPutsp => []
  | .trapHalt => []
  | .rti => []
  | .res => []

/-- The addresses an instruction's own data reads go to, the string reads of PUTS and PUTSP apart (R46). -/
def readsFrom (i : Instr) (s : State) : List Word :=
  match i with
  | .addReg _ _ _ => []
  | .addImm _ _ _ => []
  | .andReg _ _ _ => []
  | .andImm _ _ _ => []
  | .notReg _ _ => []
  | .br _ _ _ _ => []
  | .jmp _ => []
  | .jsr _ => []
  | .jsrr _ => []
  | .ld _ off => [pcRelative s off]
  | .ldi _ off => [pcRelative s off, (indirect s off).1]
  | .ldr _ base off => [baseOffset s base off]
  | .lea _ _ => []
  | .st _ _ => []
  | .sti _ off => [pcRelative s off]
  | .str _ _ _ => []
  | .trapGetc => []
  | .trapOut => []
  | .trapPuts => []
  | .trapIn => []
  | .trapPutsp => []
  | .trapHalt => []
  | .rti => []
  | .res => []

/-- The outcome with `f` applied to its next state. -/
def mapNext (f : State → State) : Result → Result
  | .next s => .next (f s)
  | .fault r => .fault r
  | .refused r => .refused r

/-- The state with earlier console output before its own. -/
def withEarlierOutput (bytes : List Byte) (s : State) : State := { s with console := bytes ++ s.console }

/-! The string loops, as spec/44_trap_reserved.md R113 and R115 write them: the pointer, the state before, the state
after. -/

/-- The loop of PUTS (R113). -/
inductive PutsLoop : Word → State → State → Prop where
  | stop {a : Word} {s : State} : (memRead s a).1 = 0 → PutsLoop a s (memRead s a).2
  | more {a : Word} {s t : State} : (memRead s a).1 ≠ 0 →
      PutsLoop (a + 1) ((memRead s a).2.conOut (lowByte (memRead s a).1)) t → PutsLoop a s t

/-- The loop of PUTSP (R115). -/
inductive PutspLoop : Word → State → State → Prop where
  | stopLow {a : Word} {s : State} : lowByte (memRead s a).1 = 0 → PutspLoop a s (memRead s a).2
  | stopHigh {a : Word} {s : State} : lowByte (memRead s a).1 ≠ 0 → highByte (memRead s a).1 = 0 →
      PutspLoop a s ((memRead s a).2.conOut (lowByte (memRead s a).1))
  | more {a : Word} {s t : State} : lowByte (memRead s a).1 ≠ 0 → highByte (memRead s a).1 ≠ 0 →
      PutspLoop (a + 1)
        (((memRead s a).2.conOut (lowByte (memRead s a).1)).conOut (highByte (memRead s a).1)) t →
      PutspLoop a s t

end Sys2Proof.Machine
end

