-- ==== Sys2Proof/Certificates/Slice0/Obligations.lean ====
section
/-! DEFINITION. The statements for the provers. Each docstring names the rules of spec/ it rests on; where a clause
rests on a value or behaviour the spec marks as its own decision, it names the log entry. Numeric words rest on the
opcode numbers and field roles of spec/30_encoding.md R54 and R51 (logs 2, 3). -/

open Sys2Proof Sys2Proof.Machine

/-! Operate (spec/40_operate.md). -/

/-- R70. Every word of the row is ADD in register mode, bits 4:3 ignored; DR gets the sum modulo 65536 of the two
source registers as they were, COND follows it, nothing else changes. -/
def Obligations.AddRegisterModeResult : Prop :=
  (∀ w : Word, w &&& 0xF020 = 0x1000 →
    decode w = .instr (.addReg (fieldDR w) (fieldSR1 w) (fieldSR2 w))) ∧
  ∀ (dr sr1 sr2 : Reg) (s : State), exec (.addReg dr sr1 sr2) s =
    .next { s with
      regs := s.regs.set dr (s.reg sr1 + s.reg sr2)
      cond := signFlag (s.reg sr1 + s.reg sr2) }

/-- R71. Immediate mode, and the round-trip property the rule states of the two modes together. -/
def Obligations.AddImmediateModeResult : Prop :=
  (∀ w : Word, w &&& 0xF020 = 0x1020 →
    decode w = .instr (.addImm (fieldDR w) (fieldSR1 w) (sext (w.extractLsb' 0 5)))) ∧
  (∀ (dr sr1 : Reg) (imm : Word) (s : State), exec (.addImm dr sr1 imm) s =
    .next { s with regs := s.regs.set dr (s.reg sr1 + imm), cond := signFlag (s.reg sr1 + imm) }) ∧
  ∀ (dr ra rb : Reg) (s : State), -15 ≤ (s.reg rb).toInt → (s.reg rb).toInt ≤ 16 →
    (Instr.addImm dr dr (-(s.reg rb))).wellFormed = true ∧
    ∃ t u, exec (.addReg dr ra rb) s = .next t ∧ exec (.addImm dr dr (-(s.reg rb))) t = .next u ∧
      u.reg dr = s.reg ra

/-- R72. -/
def Obligations.AndRegisterModeResult : Prop :=
  (∀ w : Word, w &&& 0xF020 = 0x5000 →
    decode w = .instr (.andReg (fieldDR w) (fieldSR1 w) (fieldSR2 w))) ∧
  ∀ (dr sr1 sr2 : Reg) (s : State), exec (.andReg dr sr1 sr2) s =
    .next { s with
      regs := s.regs.set dr (s.reg sr1 &&& s.reg sr2)
      cond := signFlag (s.reg sr1 &&& s.reg sr2) }

/-- R73. The mask is the sign-extended immediate. -/
def Obligations.AndImmediateModeResult : Prop :=
  (∀ w : Word, w &&& 0xF020 = 0x5020 →
    decode w = .instr (.andImm (fieldDR w) (fieldSR1 w) (sext (w.extractLsb' 0 5)))) ∧
  ∀ (dr sr1 : Reg) (imm : Word) (s : State), exec (.andImm dr sr1 imm) s =
    .next { s with regs := s.regs.set dr (s.reg sr1 &&& imm), cond := signFlag (s.reg sr1 &&& imm) }

/-- R74. The complement is 0xFFFF minus the source; bits 5:0 of the word are ignored. -/
def Obligations.NotComplementResult : Prop :=
  (∀ w : Word, w &&& 0xF000 = 0x9000 → decode w = .instr (.notReg (fieldDR w) (fieldSR1 w))) ∧
  ∀ (dr sr : Reg) (s : State), exec (.notReg dr sr) s =
    .next { s with regs := s.regs.set dr (0xFFFF - s.reg sr), cond := signFlag (0xFFFF - s.reg sr) }

/-! Control transfer (spec/41_control.md). -/

/-- R80, with the places of n, z, p and the codes of COND as log 4 has them: the branch is taken exactly when the bit
of the mask for the current flag is set. -/
def Obligations.BranchTakenByCurrentFlag : Prop :=
  (∀ w : Word, w &&& 0xF000 = 0x0000 →
    decode w = .instr (.br (w.getLsbD 11) (w.getLsbD 10) (w.getLsbD 9) (sext (w.extractLsb' 0 9)))) ∧
  ∀ (n z p : Bool) (off : Word) (s : State), exec (.br n z p off) s =
    .next { s with pc :=
      if (n = true ∧ s.cond = .neg) ∨ (z = true ∧ s.cond = .zero) ∨ (p = true ∧ s.cond = .pos)
      then s.pc + off else s.pc }

/-- R81, R82. RET is JMP through R7, and R7 keeps its value. -/
def Obligations.JumpThroughRegisterAndReturn : Prop :=
  (∀ w : Word, w &&& 0xF000 = 0xC000 → decode w = .instr (.jmp (fieldSR1 w))) ∧
  (∀ w : Word, w &&& 0xF1C0 = 0xC1C0 → decode w = .instr (.jmp .r7)) ∧
  ∀ (base : Reg) (s : State), exec (.jmp base) s = .next { s with pc := s.reg base }

/-- R83, with the long flag at bit 11 as log 5 has it. -/
def Obligations.JsrLinksAndJumpsRelative : Prop :=
  (∀ w : Word, w &&& 0xF800 = 0x4800 → decode w = .instr (.jsr (sext (w.extractLsb' 0 11)))) ∧
  ∀ (off : Word) (s : State), exec (.jsr off) s =
    .next { s with regs := s.regs.set .r7 s.pc, pc := s.pc + off }

/-- R84. That JSRR R7 goes on at the next word is the spec's decision D20 (log 23). -/
def Obligations.JsrrLinksBeforeReadingBase : Prop :=
  (∀ w : Word, w &&& 0xF800 = 0x4000 → decode w = .instr (.jsrr (fieldSR1 w))) ∧
  ∀ (base : Reg) (s : State), exec (.jsrr base) s =
    .next { s with regs := s.regs.set .r7 s.pc, pc := if base = .r7 then s.pc else s.reg base }

/-! Loads (spec/42_load.md). -/

/-- R90. The second clause has the interception, the third is the plain case. -/
def Obligations.LdLoadsPcRelativeWord : Prop :=
  (∀ w : Word, w &&& 0xF000 = 0x2000 → decode w = .instr (.ld (fieldDR w) (sext (w.extractLsb' 0 9)))) ∧
  (∀ (dr : Reg) (off : Word) (s : State), exec (.ld dr off) s =
    .next { (memRead s (s.pc + off)).2 with
      regs := s.regs.set dr (memRead s (s.pc + off)).1
      cond := signFlag (memRead s (s.pc + off)).1 }) ∧
  ∀ (dr : Reg) (off : Word) (s : State), s.pc + off ≠ config.kbsrAddr → exec (.ld dr off) s =
    .next { s with
      regs := s.regs.set dr (s.cell (s.pc + off))
      cond := signFlag (s.cell (s.pc + off)) }

/-- R91. Two reads, the pointer first, both through the interception; the flags follow the data word. The third
clause is the property the rule quotes. -/
def Obligations.LdiLoadsThroughPointer : Prop :=
  (∀ w : Word, w &&& 0xF000 = 0xA000 → decode w = .instr (.ldi (fieldDR w) (sext (w.extractLsb' 0 9)))) ∧
  (∀ (dr : Reg) (off : Word) (s : State), exec (.ldi dr off) s =
    .next { (memRead (memRead s (s.pc + off)).2 (memRead s (s.pc + off)).1).2 with
      regs := s.regs.set dr (memRead (memRead s (s.pc + off)).2 (memRead s (s.pc + off)).1).1
      cond := signFlag (memRead (memRead s (s.pc + off)).2 (memRead s (s.pc + off)).1).1 }) ∧
  ∀ (dr : Reg) (off b v : Word) (s : State), s.pc + off ≠ config.kbsrAddr → b ≠ config.kbsrAddr →
    s.cell (s.pc + off) = b → s.cell b = v →
    exec (.ldi dr off) s = .next { s with regs := s.regs.set dr v, cond := signFlag v }

/-- R92. -/
def Obligations.LdrLoadsBasePlusOffset : Prop :=
  (∀ w : Word, w &&& 0xF000 = 0x6000 →
    decode w = .instr (.ldr (fieldDR w) (fieldSR1 w) (sext (w.extractLsb' 0 6)))) ∧
  (∀ (dr base : Reg) (off : Word) (s : State), exec (.ldr dr base off) s =
    .next { (memRead s (s.reg base + off)).2 with
      regs := s.regs.set dr (memRead s (s.reg base + off)).1
      cond := signFlag (memRead s (s.reg base + off)).1 }) ∧
  ∀ (dr base : Reg) (off : Word) (s : State), s.reg base + off ≠ config.kbsrAddr →
    exec (.ldr dr base off) s = .next { s with
      regs := s.regs.set dr (s.cell (s.reg base + off))
      cond := signFlag (s.cell (s.reg base + off)) }

/-- R93. Memory is not read; the flags follow the address. -/
def Obligations.LeaDeliversAddressAndFlags : Prop :=
  (∀ w : Word, w &&& 0xF000 = 0xE000 → decode w = .instr (.lea (fieldDR w) (sext (w.extractLsb' 0 9)))) ∧
  ∀ (dr : Reg) (off : Word) (s : State), exec (.lea dr off) s =
    .next { s with regs := s.regs.set dr (s.pc + off), cond := signFlag (s.pc + off) }

/-! Stores (spec/43_store.md). -/

/-- R100. The word at the PC-relative address becomes the register, every other word and every other part of the
state is as before, and a store to the next instruction's word is what the next fetch sees. -/
def Obligations.StStoresPcRelativeWord : Prop :=
  (∀ w : Word, w &&& 0xF000 = 0x3000 → decode w = .instr (.st (fieldDR w) (sext (w.extractLsb' 0 9)))) ∧
  (∀ (sr : Reg) (off : Word) (s : State), ∃ t, exec (.st sr off) s = .next t ∧ t = { s with mem := t.mem } ∧
    t.cell (s.pc + off) = s.reg sr ∧ ∀ a, a ≠ s.pc + off → t.cell a = s.cell a) ∧
  ∀ (sr : Reg) (s t : State), s.pc ≠ config.kbsrAddr → exec (.st sr 0) s = .next t → (fetch t).ir = s.reg sr

/-- R101. The pointer is read through the interception, then the word is stored where it points; every address but
that one reads as it did after the pointer read. -/
def Obligations.StiStoresThroughPointer : Prop :=
  (∀ w : Word, w &&& 0xF000 = 0xB000 → decode w = .instr (.sti (fieldDR w) (sext (w.extractLsb' 0 9)))) ∧
  (∀ (sr : Reg) (off : Word) (s : State), ∃ t, exec (.sti sr off) s = .next t ∧
    t = { (memRead s (s.pc + off)).2 with mem := t.mem } ∧
    t.cell (memRead s (s.pc + off)).1 = s.reg sr ∧
    ∀ a, a ≠ (memRead s (s.pc + off)).1 → t.cell a = (memRead s (s.pc + off)).2.cell a) ∧
  ∀ (sr : Reg) (off : Word) (s : State), s.pc + off ≠ config.kbsrAddr → ∃ t, exec (.sti sr off) s = .next t ∧
    t = { s with mem := t.mem } ∧ t.cell (s.cell (s.pc + off)) = s.reg sr ∧
    ∀ a, a ≠ s.cell (s.pc + off) → t.cell a = s.cell a

/-- R102. -/
def Obligations.StrStoresBasePlusOffset : Prop :=
  (∀ w : Word, w &&& 0xF000 = 0x7000 →
    decode w = .instr (.str (fieldDR w) (fieldSR1 w) (sext (w.extractLsb' 0 6)))) ∧
  ∀ (sr base : Reg) (off : Word) (s : State), ∃ t, exec (.str sr base off) s = .next t ∧
    t = { s with mem := t.mem } ∧ t.cell (s.reg base + off) = s.reg sr ∧
    ∀ a, a ≠ s.reg base + off → t.cell a = s.cell a

/-! TRAP and the reserved opcodes (spec/44_trap_reserved.md, spec/60_exceptions.md). -/

/-- R111. The character is consumed and R0 becomes it with a zero high byte; COND and R7 stay (decisions D14, D15, D13:
logs 17, 18, 16). -/
def Obligations.GetcConsumesKeyIntoR0 : Prop :=
  (∀ w : Word, w &&& 0xF0FF = 0xF020 → decode w = .instr .trapGetc) ∧
  ∀ (c : Byte) (rest : List Byte) (s : State), s.keyIn = c :: rest → exec .trapGetc s =
    .next { s with keyIn := rest, regs := s.regs.set .r0 (0#8 ++ c) }

/-- R112. Exactly one byte, the low byte of R0, whatever its value; nothing else changes. That R7 and COND stay, as after
every TRAP, is R110, R120 with decisions D13, D14 (logs 16, 17). -/
def Obligations.OutAppendsLowByteOfR0 : Prop :=
  (∀ w : Word, w &&& 0xF0FF = 0xF021 → decode w = .instr .trapOut) ∧
  ∀ s : State, exec .trapOut s = .next { s with console := s.console ++ [(s.reg .r0).extractLsb' 0 8] }

/-- R113 and R122. That PUTS completes in every state rests on the finite input stream of a state (R122; log 29). It does
what the loop of the rule does, which is written without a bound (string reads through the interception, the low byte
sent, R7 and COND kept: decisions D18, D16, D13, D14; logs 21, 19, 16, 17). -/
def Obligations.PutsCompletesAsItsLoop : Prop :=
  (∀ w : Word, w &&& 0xF0FF = 0xF022 → decode w = .instr .trapPuts) ∧
  ∀ s : State, ∃ t, exec .trapPuts s = .next t ∧ PutsLoop (s.reg .r0) s t

/-- R113 on a string in plain memory: words that are not zero, then a zero word, none of them at KBSR_ADDR. Their low
bytes are sent in order and nothing else changes (the low byte, the wrap of the pointer, R7 and COND kept: decisions D16,
D18, D13, D14; logs 19, 21, 16, 17). -/
def Obligations.PutsPrintsPlainString : Prop :=
  ∀ (s : State) (ws : List Word),
    (∀ k, k ≤ ws.length → s.reg .r0 + BitVec.ofNat 16 k ≠ config.kbsrAddr) →
    (∀ k (h : k < ws.length), s.cell (s.reg .r0 + BitVec.ofNat 16 k) = ws[k] ∧ ws[k] ≠ 0) →
    s.cell (s.reg .r0 + BitVec.ofNat 16 ws.length) = 0 →
    exec .trapPuts s = .next { s with console := s.console ++ ws.map (fun w => w.extractLsb' 0 8) }

/-- R114. The echo and the store; no prompt, COND and R7 stay, the high byte zero (decisions D23, D14, D13, D15: logs 27,
17, 16, 18). -/
def Obligations.InEchoesKeyIntoR0 : Prop :=
  (∀ w : Word, w &&& 0xF0FF = 0xF023 → decode w = .instr .trapIn) ∧
  ∀ (c : Byte) (rest : List Byte) (s : State), s.keyIn = c :: rest → exec .trapIn s =
    .next { s with keyIn := rest, console := s.console ++ [c], regs := s.regs.set .r0 (0#8 ++ c) }

/-- R115 and R122, as `PutsCompletesAsItsLoop`: completion rests on the finite input stream (log 29), and the reads, R7 and
COND are decisions D18, D13, D14 (logs 21, 16, 17). The end at the first zero byte is decision D17 (log 20). -/
def Obligations.PutspCompletesAsItsLoop : Prop :=
  (∀ w : Word, w &&& 0xF0FF = 0xF024 → decode w = .instr .trapPutsp) ∧
  ∀ s : State, ∃ t, exec .trapPutsp s = .next t ∧ PutspLoop (s.reg .r0) s t

/-- R116 and R162 (a). The message (decision D19, log 22), then RUN is Halted; no register and no memory word
changes, and the PC is the address of the HALT plus 1. That a further step is refused is the model's log 24. -/
def Obligations.HaltPrintsMessageAndStops : Prop :=
  (∀ w : Word, w &&& 0xF0FF = 0xF025 → decode w = .instr .trapHalt) ∧
  (∀ s : State, exec .trapHalt s = .next { s with console := s.console ++ config.haltMsg, run := .halted }) ∧
  ∀ s : State, s.run = .running → s.pc ≠ config.kbsrAddr → decode (s.cell s.pc) = .instr .trapHalt →
    ∃ t, step s = .next t ∧ t.run = .halted ∧ t.pc = s.pc + 1 ∧ t.regs = s.regs ∧ t.mem = s.mem ∧
      t.cond = s.cond ∧ t.console = s.console ++ config.haltMsg ∧ step t = .refused .halted

/-- R117, R130, R131. Every TRAP word whose vector is none of the six takes the fault, whatever the vector, and nothing else
changes. That RUN records the word and its address PC - 1 is decision D21 (log 24); that the decoder answers these words
by name, apart from the table's rows, is the model's (log 35). -/
def Obligations.UndefinedTrapVectorFaults : Prop :=
  (∀ w : Word, w &&& 0xF000 = 0xF000 → w &&& 0x00FF < 0x0020 ∨ 0x0025 < w &&& 0x00FF →
    decode w = .undefinedTrap (w.extractLsb' 0 8)) ∧
  (∀ (v : BitVec 8) (s : State), execUndefinedTrap v s =
    .next { s with run := .faulted .badTrapVector s.ir (s.pc - 1) }) ∧
  ∀ (v : BitVec 8) (s : State), s.run = .running → decode (fetch s).ir = .undefinedTrap v →
    step s = .next { fetch s with run := .faulted .badTrapVector (fetch s).ir s.pc }

/-- R118, R119, R130, R131. Every word of the two opcodes takes the fault in every state. That RUN records the word and its
address PC - 1 is decision D21 (log 24). -/
def Obligations.ReservedOpcodesFault : Prop :=
  (∀ w : Word, w &&& 0xF000 = 0x8000 → decode w = .instr .rti) ∧
  (∀ w : Word, w &&& 0xF000 = 0xD000 → decode w = .instr .res) ∧
  (∀ s : State, exec .rti s = .next { s with run := .faulted .reservedOpcode s.ir (s.pc - 1) }) ∧
  (∀ s : State, exec .res s = .next { s with run := .faulted .reservedOpcode s.ir (s.pc - 1) }) ∧
  ∀ s : State, s.run = .running → (decode (fetch s).ir = .instr .rti ∨ decode (fetch s).ir = .instr .res) →
    step s = .next { fetch s with run := .faulted .reservedOpcode (fetch s).ir s.pc }

/-- spec/60_exceptions.md R131, with the record of decision D21 (log 24): a step that ends Faulted from a Running core
has done the fetch and nothing else, its record is the fetched word and the address it was fetched from, and no step
follows: every later step shows that record. -/
def Obligations.FaultEntryChangesOnlyRun : Prop :=
  ∀ (s t : State) (cause : FaultCause) (ir addr : Word), s.run = .running → step s = .next t →
    t.run = .faulted cause ir addr →
    t = { fetch s with run := .faulted cause ir addr } ∧ ir = (fetch s).ir ∧ addr = s.pc ∧ t.pc = s.pc + 1 ∧
      step t = .fault (.decodeFault cause ir addr)

/-! The cycle (spec/10_state.md R21, R26; spec/60_exceptions.md R143). -/

/-- R26. What the fetch does, and that a Running core runs what the fetched word decodes to, at the incremented PC. -/
def Obligations.StepRunsDecodedInstruction : Prop :=
  (∀ s : State, fetch s = { (memRead s s.pc).2 with ir := (memRead s s.pc).1, pc := s.pc + 1 }) ∧
  (∀ (s : State) (i : Instr), s.run = .running → decode (memRead s s.pc).1 = .instr i →
    ¬ ((i = .trapGetc ∨ i = .trapIn) ∧ (memRead s s.pc).2.keyIn = []) → step s = exec i (fetch s)) ∧
  ∀ (s : State) (v : BitVec 8), s.run = .running → decode (memRead s s.pc).1 = .undefinedTrap v →
    step s = execUndefinedTrap v (fetch s)

/-- The model's own interface (log 14): a word placed by `withFetchWord` is what the very next step fetches and
runs, from any state. -/
def Obligations.PlacedWordRunsNext : Prop :=
  ∀ (s : State) (w : Word) (i : Instr), decode w = .instr i → ¬ ((i = .trapGetc ∨ i = .trapIn) ∧ s.keyIn = []) →
    (fetch (s.withFetchWord 16 w.toNat)).ir = w ∧
      step (s.withFetchWord 16 w.toNat) = exec i (fetch (s.withFetchWord 16 w.toNat))

/-- R143. While no character is there a GETC or IN step changes nothing at all (that it answers the same state is the
model's choice, log 26); once the environment supplies one, the very next step completes with it, by R111 or R114. In that
completion the zero high byte, COND and R7 kept and no prompt are decisions D15, D14, D13, D23 (logs 18, 17, 16, 27). -/
def Obligations.HoldLastsUntilKeyArrives : Prop :=
  (∀ s : State, s.run = .running → (fetch s).keyIn = [] →
    (decode (fetch s).ir = .instr .trapGetc ∨ decode (fetch s).ir = .instr .trapIn) → step s = .next s) ∧
  (∀ (s : State) (c : Byte) (cs : List Byte), s.run = .running → s.pc ≠ config.kbsrAddr → s.keyIn = [] →
    decode (s.cell s.pc) = .instr .trapGetc →
    step (s.supplyKeys (c :: cs)) = .next { s with
      ir := s.cell s.pc, pc := s.pc + 1, keyIn := cs, regs := s.regs.set .r0 (0#8 ++ c) }) ∧
  ∀ (s : State) (c : Byte) (cs : List Byte), s.run = .running → s.pc ≠ config.kbsrAddr → s.keyIn = [] →
    decode (s.cell s.pc) = .instr .trapIn →
    step (s.supplyKeys (c :: cs)) = .next { s with
      ir := s.cell s.pc, pc := s.pc + 1, keyIn := cs, regs := s.regs.set .r0 (0#8 ++ c),
      console := s.console ++ [c] }

/-- R21, with the third run state of decision D21 (log 24): only a Running core takes a step. A step from Running
ends Halted exactly when it ran TRAP x25, and ends Faulted exactly when the word was a reserved opcode or a TRAP with an
undefined vector. -/
def Obligations.OnlyHaltHaltsAndOnlyDecodeFaults : Prop :=
  (∀ s t : State, step s = .next t → s.run = .running) ∧
  (∀ s t : State, step s = .next t → (t.run = .halted ↔ decode (fetch s).ir = .instr .trapHalt)) ∧
  ∀ s t : State, step s = .next t → (t.EndsFatally ↔
    decode (fetch s).ir = .instr .rti ∨ decode (fetch s).ir = .instr .res ∨
      ∃ v, decode (fetch s).ir = .undefinedTrap v)

/-- The model's, not a rule: a step of a Running core always answers a next state, whatever it fetches and whatever the
data. For the instructions that fault it rests on R131 (a fault is a state of RUN; decision D21, log 24). Where the spec has
no completed step the model's choices make it so: while GETC or IN waits (R143: the core takes no step) the step answers the
unchanged state (log 26), and PUTS and PUTSP, which R122 and R163 let run forever, end because the input stream of a state is
finite (log 29). -/
def Obligations.RunningCoreAlwaysSteps : Prop := ∀ s : State, s.run = .running → ∃ t, step s = .next t

/-! Memory (spec/20_memory.md). -/

/-- R31, R34, with decisions D8 and D9 (logs 9, 10) for what a ready poll stores and consumes. -/
def Obligations.MemReadPollsOnlyKbsr : Prop :=
  (∀ (s : State) (a : Word), a ≠ config.kbsrAddr → memRead s a = (s.cell a, s)) ∧
  (∀ s : State, kbdAvail s = false → ∃ t, memRead s config.kbsrAddr = (0x0000, t) ∧
    t.cell config.kbsrAddr = 0x0000 ∧ (∀ a, a ≠ config.kbsrAddr → t.cell a = s.cell a) ∧
    t.keyIn = s.keyIn ∧ SameButPolls s t) ∧
  ∀ (s : State) (c : Byte) (rest : List Byte), s.keyIn = c :: rest → kbdAvail s = true →
    ∃ t, memRead s config.kbsrAddr = (s.cell config.kbsrAddr ||| 0x8000, t) ∧
      t.cell config.kbsrAddr = s.cell config.kbsrAddr ||| 0x8000 ∧ t.cell config.kbdrAddr = 0#8 ++ c ∧
      t.keyIn = rest ∧ SameButPolls s t

/-- R32. The word is stored at every address, every other address reads as before, nothing else changes. -/
def Obligations.MemWriteStoresUnconditionally : Prop :=
  ∀ (s : State) (a v : Word), memWrite s a v = { s with mem := (memWrite s a v).mem } ∧
    ∀ b, (memWrite s a v).cell b = if b = a then v else s.cell b

/-- R35, with decision D8 (log 9): what a read returns after a write to each of the two mapped addresses. -/
def Obligations.MappedWordsReadAfterWrite : Prop :=
  (∀ (s : State) (v : Word), memRead (memWrite s config.kbdrAddr v) config.kbdrAddr =
    (v, memWrite s config.kbdrAddr v)) ∧
  ∀ (s : State) (v : Word), (memRead (memWrite s config.kbsrAddr v) config.kbsrAddr).1 =
    if kbdAvail s then v ||| 0x8000 else 0x0000

/-- R45, R159: where a store puts its word at the address the PC now holds, the very next fetch reads that word. -/
def Obligations.StoreSeenByNextFetch : Prop :=
  (∀ (sr : Reg) (off : Word) (s t : State), s.pc ≠ config.kbsrAddr → s.pc + off = s.pc →
    exec (.st sr off) s = .next t → (fetch t).ir = s.reg sr) ∧
  (∀ (sr : Reg) (off : Word) (s t : State), s.pc ≠ config.kbsrAddr → (memRead s (s.pc + off)).1 = s.pc →
    exec (.sti sr off) s = .next t → (fetch t).ir = s.reg sr) ∧
  ∀ (sr base : Reg) (off : Word) (s t : State), s.pc ≠ config.kbsrAddr → s.reg base + off = s.pc →
    exec (.str sr base off) s = .next t → (fetch t).ir = s.reg sr

/-! Flags and sign extension. -/

/-- spec/10_state.md R15. -/
def Obligations.SetccDescribesRegister : Prop :=
  ∀ (s : State) (r : Reg), setcc s r = { s with cond := (setcc s r).cond } ∧
    ((setcc s r).cond = .zero ↔ s.reg r = 0x0000) ∧
    ((setcc s r).cond = .neg ↔ (s.reg r).toInt < 0) ∧
    ((setcc s r).cond = .pos ↔ 0 < (s.reg r).toInt)

/-- spec/30_encoding.md R53: the formula of the rule for the four widths, the cut of each field from the word, the
unsigned vector, the signed ranges, and the two examples. -/
def Obligations.SignExtensionFormula : Prop :=
  (∀ n, n ∈ [5, 6, 9, 11] → ∀ v : BitVec n, sext v =
    if v.getLsbD (n - 1) then v.setWidth 16 ||| (0xFFFF#16 <<< n) else v.setWidth 16) ∧
  (∀ n, n ∈ [5, 6, 9, 11] → ∀ v : BitVec n,
    (sext v).toNat = if 2 ^ (n - 1) ≤ v.toNat then v.toNat + 65536 - 2 ^ n else v.toNat) ∧
  (∀ n, n ∈ [5, 6, 9, 11] → ∀ v : BitVec n,
    -(2 ^ (n - 1) : Int) ≤ (sext v).toInt ∧ (sext v).toInt ≤ (2 ^ (n - 1) : Int) - 1) ∧
  (∀ w : Word, fieldImm5 w = sext (w.setWidth 5) ∧ fieldOffset6 w = sext (w.setWidth 6) ∧
    fieldOffset9 w = sext (w.setWidth 9) ∧ fieldOffset11 w = sext (w.setWidth 11) ∧
    (trapVector w).toNat = w.toNat % 256) ∧
  sext (0b11111#5) = 0xFFFF ∧ sext (0b01111#5) = 0x000F

/-! What an instruction leaves unchanged, for every instruction. -/

/-- spec/10_state.md R16 (for TRAP with decision D14, log 17): each of the seven leaves COND describing its DR, and no
other instruction changes COND. -/
def Obligations.CondFollowsOnlyTheSeven : Prop :=
  (∀ (i : Instr) (s t : State), exec i s = .next t → flagSource i = none → t.cond = s.cond) ∧
  ∀ (i : Instr) (dr : Reg) (s t : State), exec i s = .next t → flagSource i = some dr →
    t.cond = signFlag (t.reg dr)

/-- The table of spec/10_state.md R12 (for TRAP with decision D13, log 16): an instruction changes no general register
but those it writes. -/
def Obligations.OnlyNamedRegistersChange : Prop :=
  ∀ (i : Instr) (s t : State), exec i s = .next t → SameRegsBut (writtenRegs i) s t

/-- spec/20_memory.md R46, R33 (f), spec/44_trap_reserved.md R120: every address but the one stored to and the two
mapped words reads as before; and an instruction that is no string routine and reads nothing at KBSR_ADDR leaves
every address but the one stored to alone. -/
def Obligations.OnlyStoredWordAndPollsChangeMemory : Prop :=
  (∀ (i : Instr) (s t : State), exec i s = .next t →
    SameCellsBut (storedTo i s ++ [config.kbsrAddr, config.kbdrAddr]) s t) ∧
  ∀ (i : Instr) (s t : State), exec i s = .next t → i ≠ .trapPuts → i ≠ .trapPutsp →
    config.kbsrAddr ∉ readsFrom i s → SameCellsBut (storedTo i s) s t

/-- The table of spec/10_state.md R13: only BR, JMP, JSR and JSRR write the PC in the execute phase (a GETC or IN that
waits apart, which R143 has not run). -/
def Obligations.OnlyControlTransferWritesPc : Prop :=
  ∀ (i : Instr) (s t : State), exec i s = .next t → awaitsKey i s = false →
    (∀ n z p off, i ≠ .br n z p off) → (∀ base, i ≠ .jmp base) → (∀ off, i ≠ .jsr off) →
    (∀ base, i ≠ .jsrr base) → t.pc = s.pc

/-- spec/60_exceptions.md R139, spec/44_trap_reserved.md R121: the console output only grows, and only by OUT, PUTS,
IN, PUTSP and HALT; the input stream is only consumed, from its front; only HALT, RTI and RES write RUN; IR keeps the
word. -/
def Obligations.EnvironmentAndRunFrame : Prop :=
  ∀ (i : Instr) (s t : State), exec i s = .next t →
    s.console <+: t.console ∧ t.keyIn <:+ s.keyIn ∧ t.ir = s.ir ∧
    (i ≠ .trapOut → i ≠ .trapPuts → i ≠ .trapIn → i ≠ .trapPutsp → i ≠ .trapHalt → t.console = s.console) ∧
    (i ≠ .trapHalt → i ≠ .rti → i ≠ .res → t.run = s.run) ∧
    (i ≠ .trapGetc → i ≠ .trapIn → i ≠ .trapPuts → i ≠ .trapPutsp → config.kbsrAddr ∉ readsFrom i s →
      SameKeyboard s t)

/-! Encoding (spec/30_encoding.md). -/

/-- R55, R52: decoding an encoded well-formed instruction gives it back, every operand at every value its field
admits. -/
def Obligations.DecodeEncodeRoundTrip : Prop := ∀ i : Instr, i.wellFormed = true → decode (encode i) = .instr i

/-- R53, R55: what the decoder gives is always well formed, and encoding it gives a word that decodes alike. -/
def Obligations.DecodedInstructionsWellFormed : Prop :=
  ∀ (w : Word) (i : Instr), decode w = .instr i → i.wellFormed = true ∧ decode (encode i) = decode w

/-- R56 (decision D6, log 7): two words that differ only in bits their instruction does not read decode alike. -/
def Obligations.UnreadBitsAreIgnored : Prop :=
  ∀ w w' : Word,
    (w &&& 0xF020 = 0x1000 ∧ w &&& 0xFFE7 = w' &&& 0xFFE7 ∨
     w &&& 0xF020 = 0x5000 ∧ w &&& 0xFFE7 = w' &&& 0xFFE7 ∨
     w &&& 0xF000 = 0x9000 ∧ w &&& 0xFFC0 = w' &&& 0xFFC0 ∨
     w &&& 0xF000 = 0xC000 ∧ w &&& 0xF1C0 = w' &&& 0xF1C0 ∨
     w &&& 0xF800 = 0x4000 ∧ w &&& 0xF9C0 = w' &&& 0xF9C0 ∨
     w &&& 0xF000 = 0xF000 ∧ w &&& 0xF0FF = w' &&& 0xF0FF ∨
     w &&& 0xF000 = 0x8000 ∧ w &&& 0xF000 = w' &&& 0xF000 ∨
     w &&& 0xF000 = 0xD000 ∧ w &&& 0xF000 = w' &&& 0xF000) →
    decode w = decode w'

/-- R59, R117: the six defined vectors, and that every other one is rejected and faults. The record in RUN of the word and its
address is R130 with decision D21 (log 24); decoding these words by name is the model's (log 35). -/
def Obligations.SixTrapVectorsDefined : Prop :=
  ∀ w : Word, w.extractLsb' 12 4 = config.opTRAP →
    (w.toNat % 256 = 0x20 → decode w = .instr .trapGetc) ∧
    (w.toNat % 256 = 0x21 → decode w = .instr .trapOut) ∧
    (w.toNat % 256 = 0x22 → decode w = .instr .trapPuts) ∧
    (w.toNat % 256 = 0x23 → decode w = .instr .trapIn) ∧
    (w.toNat % 256 = 0x24 → decode w = .instr .trapPutsp) ∧
    (w.toNat % 256 = 0x25 → decode w = .instr .trapHalt) ∧
    (w.toNat % 256 < 0x20 ∨ 0x25 < w.toNat % 256 →
      decode w = .undefinedTrap (BitVec.ofNat 8 w.toNat) ∧
      ∀ s : State, s.run = .running → (fetch s).ir = w →
        step s = .next { fetch s with run := .faulted .badTrapVector w s.pc })

/-- R52, R60, R61: words written out from the formats, one per family and more. -/
def Obligations.WordsOfTheManualDecode : Prop :=
  decode 0b0001010000000001 = .instr (.addReg .r2 .r0 .r1) ∧
  decode 0b0001001001110000 = .instr (.addImm .r1 .r1 0xFFF0) ∧
  decode 0b0101001010110000 = .instr (.andImm .r1 .r2 0xFFF0) ∧
  decode 0b1001000000111111 = .instr (.notReg .r0 .r0) ∧
  decode 0b0000010011111111 = .instr (.br false true false 0x00FF) ∧
  decode 0b1100000111000000 = .instr (.jmp .r7) ∧
  decode 0b0100110000000000 = .instr (.jsr 0xFC00) ∧
  decode 0b0100000010000000 = .instr (.jsrr .r2) ∧
  decode 0b1010011000000100 = .instr (.ldi .r3 0x0004) ∧
  decode 0b0111001010111111 = .instr (.str .r1 .r2 0xFFFF) ∧
  decode 0b1111000000100101 = .instr .trapHalt ∧
  decode 0b1111000000100110 = .undefinedTrap 0x26 ∧
  decode 0b1000000000000000 = .instr .rti

/-- R58: the words 0x0000 to 0x01FF (BR with no condition) and every BR with offset 0 do nothing but advance the PC,
run from any address but KBSR_ADDR. -/
def Obligations.BranchNoOps : Prop :=
  ∀ s : State, s.run = .running → s.pc ≠ config.kbsrAddr →
    (s.cell s.pc &&& 0xFE00 = 0x0000 ∨ s.cell s.pc &&& 0xF1FF = 0x0000) →
    step s = .next { s with ir := s.cell s.pc, pc := s.pc + 1 }

/-! Reset and boot (spec/70_reset_and_hazards.md). -/

/-- R25, R150 (1), R27. The values of registers, COND and memory are decisions D10 to D12 and the PC before any image is
the model's (logs 11, 12, 13, 14). -/
def Obligations.ResetValues : Prop :=
  State.reset.run = .running ∧ State.reset.console = [] ∧ (∀ r, State.reset.reg r = 0x0000) ∧
    State.reset.cond = .zero ∧ (∀ a, State.reset.cell a = 0x0000) ∧ State.reset.pc = 0x0000 ∧
    (∀ n z p off, exec (.br n z p off) State.reset =
      .next { State.reset with pc := if z then off else 0x0000 })

/-- R151 (images of fewer than two bytes: decision D24, log 28). A well-formed image puts its big-endian words from its
origin on, changes no other word, sets the PC to the origin and changes nothing else; every other byte sequence is an
image format error. -/
def Obligations.LoadImagePlacesWords : Prop :=
  (∀ (hi lo : Byte) (payload : List Byte) (s : State), payload.length % 2 = 0 →
    (hi ++ lo).toNat + payload.length / 2 ≤ 65536 →
    ∃ t, loadImage (hi :: lo :: payload) s = .ok t ∧ t = { s with mem := t.mem, pc := hi ++ lo } ∧
      (∀ k (h : 2 * k + 1 < payload.length),
        Memory.read t.mem ((hi ++ lo).toNat + k) = payload[2 * k] ++ payload[2 * k + 1]) ∧
      ∀ a, (a < (hi ++ lo).toNat ∨ (hi ++ lo).toNat + payload.length / 2 ≤ a) →
        Memory.read t.mem a = Memory.read s.mem a) ∧
  (∀ (hi lo : Byte) (payload : List Byte) (s : State),
    (payload.length % 2 = 1 ∨ 65536 < (hi ++ lo).toNat + payload.length / 2) →
    loadImage (hi :: lo :: payload) s = .error .imageFormat) ∧
  ∀ (bytes : List Byte) (s : State), bytes.length < 2 → loadImage bytes s = .error .imageFormat

/-- R150, R153, R154 (register, COND and memory values: logs 11, 12, 13): a booted core has the reset registers and
flags, is Running with no output, keeps the canonical memory, and stands at the origin of the last image; with no image
there is no run. -/
def Obligations.BootStartsAtLastOrigin : Prop :=
  boot [] = .error .noImage ∧
  ∀ (images : List (List Byte)) (last : List Byte) (t : State), boot (images ++ [last]) = .ok t →
    ∃ hi lo payload, last = hi :: lo :: payload ∧ t.pc = hi ++ lo ∧ t.regs = State.reset.regs ∧
      t.cond = State.reset.cond ∧ t.run = .running ∧ t.console = [] ∧ Memory.wf t.mem = true

/-! The invariant, and what the core never reads. -/

/-- The invariant holds right after reset. -/
def Obligations.ResetMeetsInvariant : Prop := Inv State.reset

/-- spec/20_memory.md R30, R18, spec/60_exceptions.md R130, R131, spec/70_reset_and_hazards.md R162: every step keeps
memory canonical and RUN truthful: Halted only after TRAP x25 with the message last on the console, Faulted only with
the record of a word that raises that cause (the record: decision D21, log 24). -/
def Obligations.StepKeepsInvariant : Prop := ∀ s t : State, Inv s → step s = .next t → Inv t

/-- Every state that any run of any booted program reaches, whatever characters the environment supplies between its
steps, meets the invariant; and a run that has ended shows why: Halted with the message last on the console, or Faulted
at a word that is a reserved opcode or a TRAP with an undefined vector (the record of a fault: decision D21, log 24). It is
the induction over runs on top of `StepKeepsInvariant`. -/
def Obligations.BootedRunsKeepInvariant : Prop :=
  ∀ (images : List (List Byte)) (s t : State), boot images = .ok s → Reaches s t →
    Inv t ∧ (t.EndsWell → config.haltMsg <:+ t.console) ∧
    (t.EndsFatally → decode t.ir = .instr .rti ∨ decode t.ir = .instr .res ∨ ∃ v, decode t.ir = .undefinedTrap v)

/-- spec/10_state.md R23, decision D22: the console output is never read: a step from a state with other earlier output
does the same, with that output kept in front. -/
def Obligations.ConsoleOutputNeverRead : Prop :=
  ∀ (s : State) (bytes : List Byte),
    step (withEarlierOutput bytes s) = mapNext (withEarlierOutput bytes) (step s)
end

