-- ==== Sys2Proof/Laws/State.lean ====
section
/-! SUPPORT. One lemma per field per update of the state, true by rfl, so that no proof unfolds a record update; and
the laws of the register file. -/

namespace Sys2Proof.Laws

open Sys2Proof Sys2Proof.Machine

/-! The register file. -/

@[simp] theorem regs_get_set_self (g : Regs) (r : Reg) (v : Word) : (g.set r v).get r = v := by
  cases r <;> rfl

@[simp] theorem regs_get_set_ne (g : Regs) {r q : Reg} (v : Word) (h : q ≠ r) : (g.set r v).get q = g.get q := by
  cases r <;> cases q <;> first | rfl | exact absurd rfl h

/-- Every register but those written reads as before. -/
theorem regs_get_set (g : Regs) (r q : Reg) (v : Word) :
    (g.set r v).get q = if q = r then v else g.get q := by
  by_cases h : q = r
  · subst h; simp
  · simp [h]

/-- Two register files that agree on every register are equal. -/
theorem regs_ext {g h : Regs} (e : ∀ r, g.get r = h.get r) : g = h := by
  cases g; cases h
  simp only [Regs.mk.injEq]
  exact ⟨e .r0, e .r1, e .r2, e .r3, e .r4, e .r5, e .r6, e .r7⟩

/-! What each update leaves in each field. -/

@[simp] theorem setReg_regs (s : State) (r : Reg) (v : Word) : (s.setReg r v).regs = s.regs.set r v := rfl
@[simp] theorem setReg_pc (s : State) (r : Reg) (v : Word) : (s.setReg r v).pc = s.pc := rfl
@[simp] theorem setReg_cond (s : State) (r : Reg) (v : Word) : (s.setReg r v).cond = s.cond := rfl
@[simp] theorem setReg_mem (s : State) (r : Reg) (v : Word) : (s.setReg r v).mem = s.mem := rfl
@[simp] theorem setReg_run (s : State) (r : Reg) (v : Word) : (s.setReg r v).run = s.run := rfl
@[simp] theorem setReg_ir (s : State) (r : Reg) (v : Word) : (s.setReg r v).ir = s.ir := rfl
@[simp] theorem setReg_keyIn (s : State) (r : Reg) (v : Word) : (s.setReg r v).keyIn = s.keyIn := rfl
@[simp] theorem setReg_keyPolls (s : State) (r : Reg) (v : Word) : (s.setReg r v).keyPolls = s.keyPolls := rfl
@[simp] theorem setReg_pollCount (s : State) (r : Reg) (v : Word) : (s.setReg r v).pollCount = s.pollCount := rfl
@[simp] theorem setReg_console (s : State) (r : Reg) (v : Word) : (s.setReg r v).console = s.console := rfl

@[simp] theorem setPc_regs (s : State) (t : Word) : (s.setPc t).regs = s.regs := rfl
@[simp] theorem setPc_pc (s : State) (t : Word) : (s.setPc t).pc = t := rfl
@[simp] theorem setPc_cond (s : State) (t : Word) : (s.setPc t).cond = s.cond := rfl
@[simp] theorem setPc_mem (s : State) (t : Word) : (s.setPc t).mem = s.mem := rfl
@[simp] theorem setPc_run (s : State) (t : Word) : (s.setPc t).run = s.run := rfl
@[simp] theorem setPc_ir (s : State) (t : Word) : (s.setPc t).ir = s.ir := rfl
@[simp] theorem setPc_keyIn (s : State) (t : Word) : (s.setPc t).keyIn = s.keyIn := rfl
@[simp] theorem setPc_keyPolls (s : State) (t : Word) : (s.setPc t).keyPolls = s.keyPolls := rfl
@[simp] theorem setPc_pollCount (s : State) (t : Word) : (s.setPc t).pollCount = s.pollCount := rfl
@[simp] theorem setPc_console (s : State) (t : Word) : (s.setPc t).console = s.console := rfl

@[simp] theorem conOut_regs (s : State) (b : Byte) : (s.conOut b).regs = s.regs := rfl
@[simp] theorem conOut_pc (s : State) (b : Byte) : (s.conOut b).pc = s.pc := rfl
@[simp] theorem conOut_cond (s : State) (b : Byte) : (s.conOut b).cond = s.cond := rfl
@[simp] theorem conOut_mem (s : State) (b : Byte) : (s.conOut b).mem = s.mem := rfl
@[simp] theorem conOut_run (s : State) (b : Byte) : (s.conOut b).run = s.run := rfl
@[simp] theorem conOut_ir (s : State) (b : Byte) : (s.conOut b).ir = s.ir := rfl
@[simp] theorem conOut_keyIn (s : State) (b : Byte) : (s.conOut b).keyIn = s.keyIn := rfl
@[simp] theorem conOut_keyPolls (s : State) (b : Byte) : (s.conOut b).keyPolls = s.keyPolls := rfl
@[simp] theorem conOut_pollCount (s : State) (b : Byte) : (s.conOut b).pollCount = s.pollCount := rfl
@[simp] theorem conOut_console (s : State) (b : Byte) : (s.conOut b).console = s.console ++ [b] := rfl

@[simp] theorem setCell_regs (s : State) (a v : Word) : (s.setCell a v).regs = s.regs := rfl
@[simp] theorem setCell_pc (s : State) (a v : Word) : (s.setCell a v).pc = s.pc := rfl
@[simp] theorem setCell_cond (s : State) (a v : Word) : (s.setCell a v).cond = s.cond := rfl
@[simp] theorem setCell_mem (s : State) (a v : Word) : (s.setCell a v).mem = Memory.write s.mem a.toNat v := rfl
@[simp] theorem setCell_run (s : State) (a v : Word) : (s.setCell a v).run = s.run := rfl
@[simp] theorem setCell_ir (s : State) (a v : Word) : (s.setCell a v).ir = s.ir := rfl
@[simp] theorem setCell_keyIn (s : State) (a v : Word) : (s.setCell a v).keyIn = s.keyIn := rfl
@[simp] theorem setCell_keyPolls (s : State) (a v : Word) : (s.setCell a v).keyPolls = s.keyPolls := rfl
@[simp] theorem setCell_pollCount (s : State) (a v : Word) : (s.setCell a v).pollCount = s.pollCount := rfl
@[simp] theorem setCell_console (s : State) (a v : Word) : (s.setCell a v).console = s.console := rfl

@[simp] theorem pollMade_regs (s : State) : (s.pollMade).regs = s.regs := rfl
@[simp] theorem pollMade_pc (s : State) : (s.pollMade).pc = s.pc := rfl
@[simp] theorem pollMade_cond (s : State) : (s.pollMade).cond = s.cond := rfl
@[simp] theorem pollMade_mem (s : State) : (s.pollMade).mem = s.mem := rfl
@[simp] theorem pollMade_run (s : State) : (s.pollMade).run = s.run := rfl
@[simp] theorem pollMade_ir (s : State) : (s.pollMade).ir = s.ir := rfl
@[simp] theorem pollMade_keyIn (s : State) : (s.pollMade).keyIn = s.keyIn := rfl
@[simp] theorem pollMade_keyPolls (s : State) : (s.pollMade).keyPolls = s.keyPolls.tail := rfl
@[simp] theorem pollMade_pollCount (s : State) : (s.pollMade).pollCount = s.pollCount + 1 := rfl
@[simp] theorem pollMade_console (s : State) : (s.pollMade).console = s.console := rfl

@[simp] theorem supplyKeys_regs (s : State) (cs : List Byte) : (s.supplyKeys cs).regs = s.regs := rfl
@[simp] theorem supplyKeys_pc (s : State) (cs : List Byte) : (s.supplyKeys cs).pc = s.pc := rfl
@[simp] theorem supplyKeys_cond (s : State) (cs : List Byte) : (s.supplyKeys cs).cond = s.cond := rfl
@[simp] theorem supplyKeys_mem (s : State) (cs : List Byte) : (s.supplyKeys cs).mem = s.mem := rfl
@[simp] theorem supplyKeys_run (s : State) (cs : List Byte) : (s.supplyKeys cs).run = s.run := rfl
@[simp] theorem supplyKeys_ir (s : State) (cs : List Byte) : (s.supplyKeys cs).ir = s.ir := rfl
@[simp] theorem supplyKeys_keyIn (s : State) (cs : List Byte) : (s.supplyKeys cs).keyIn = s.keyIn ++ cs := rfl
@[simp] theorem supplyKeys_keyPolls (s : State) (cs : List Byte) : (s.supplyKeys cs).keyPolls = s.keyPolls := rfl
@[simp] theorem supplyKeys_pollCount (s : State) (cs : List Byte) : (s.supplyKeys cs).pollCount = s.pollCount := rfl
@[simp] theorem supplyKeys_console (s : State) (cs : List Byte) : (s.supplyKeys cs).console = s.console := rfl

@[simp] theorem setcc_regs (s : State) (r : Reg) : (setcc s r).regs = s.regs := rfl
@[simp] theorem setcc_pc (s : State) (r : Reg) : (setcc s r).pc = s.pc := rfl
@[simp] theorem setcc_cond (s : State) (r : Reg) : (setcc s r).cond = flagOf (s.reg r) := rfl
@[simp] theorem setcc_mem (s : State) (r : Reg) : (setcc s r).mem = s.mem := rfl
@[simp] theorem setcc_run (s : State) (r : Reg) : (setcc s r).run = s.run := rfl
@[simp] theorem setcc_ir (s : State) (r : Reg) : (setcc s r).ir = s.ir := rfl
@[simp] theorem setcc_keyIn (s : State) (r : Reg) : (setcc s r).keyIn = s.keyIn := rfl
@[simp] theorem setcc_keyPolls (s : State) (r : Reg) : (setcc s r).keyPolls = s.keyPolls := rfl
@[simp] theorem setcc_pollCount (s : State) (r : Reg) : (setcc s r).pollCount = s.pollCount := rfl
@[simp] theorem setcc_console (s : State) (r : Reg) : (setcc s r).console = s.console := rfl

@[simp] theorem writeResult_regs (s : State) (dr : Reg) (v : Word) : (writeResult s dr v).regs = s.regs.set dr v := rfl
@[simp] theorem writeResult_pc (s : State) (dr : Reg) (v : Word) : (writeResult s dr v).pc = s.pc := rfl
@[simp] theorem writeResult_mem (s : State) (dr : Reg) (v : Word) : (writeResult s dr v).mem = s.mem := rfl
@[simp] theorem writeResult_run (s : State) (dr : Reg) (v : Word) : (writeResult s dr v).run = s.run := rfl
@[simp] theorem writeResult_ir (s : State) (dr : Reg) (v : Word) : (writeResult s dr v).ir = s.ir := rfl
@[simp] theorem writeResult_keyIn (s : State) (dr : Reg) (v : Word) : (writeResult s dr v).keyIn = s.keyIn := rfl
@[simp] theorem writeResult_keyPolls (s : State) (dr : Reg) (v : Word) : (writeResult s dr v).keyPolls = s.keyPolls := rfl
@[simp] theorem writeResult_pollCount (s : State) (dr : Reg) (v : Word) : (writeResult s dr v).pollCount = s.pollCount := rfl
@[simp] theorem writeResult_console (s : State) (dr : Reg) (v : Word) : (writeResult s dr v).console = s.console := rfl

@[simp] theorem raiseFault_regs (s : State) (c : FaultCause) : (raiseFault c s).regs = s.regs := rfl
@[simp] theorem raiseFault_pc (s : State) (c : FaultCause) : (raiseFault c s).pc = s.pc := rfl
@[simp] theorem raiseFault_cond (s : State) (c : FaultCause) : (raiseFault c s).cond = s.cond := rfl
@[simp] theorem raiseFault_mem (s : State) (c : FaultCause) : (raiseFault c s).mem = s.mem := rfl
@[simp] theorem raiseFault_run (s : State) (c : FaultCause) : (raiseFault c s).run = .faulted c s.ir (s.pc - 1) := rfl
@[simp] theorem raiseFault_ir (s : State) (c : FaultCause) : (raiseFault c s).ir = s.ir := rfl
@[simp] theorem raiseFault_keyIn (s : State) (c : FaultCause) : (raiseFault c s).keyIn = s.keyIn := rfl
@[simp] theorem raiseFault_keyPolls (s : State) (c : FaultCause) : (raiseFault c s).keyPolls = s.keyPolls := rfl
@[simp] theorem raiseFault_pollCount (s : State) (c : FaultCause) : (raiseFault c s).pollCount = s.pollCount := rfl
@[simp] theorem raiseFault_console (s : State) (c : FaultCause) : (raiseFault c s).console = s.console := rfl

@[simp] theorem linkR7_regs (s : State) : (linkR7 s).regs = s.regs.set .r7 s.pc := rfl
@[simp] theorem linkR7_pc (s : State) : (linkR7 s).pc = s.pc := rfl
@[simp] theorem linkR7_cond (s : State) : (linkR7 s).cond = s.cond := rfl
@[simp] theorem linkR7_mem (s : State) : (linkR7 s).mem = s.mem := rfl
@[simp] theorem linkR7_run (s : State) : (linkR7 s).run = s.run := rfl
@[simp] theorem linkR7_ir (s : State) : (linkR7 s).ir = s.ir := rfl
@[simp] theorem linkR7_keyIn (s : State) : (linkR7 s).keyIn = s.keyIn := rfl
@[simp] theorem linkR7_keyPolls (s : State) : (linkR7 s).keyPolls = s.keyPolls := rfl
@[simp] theorem linkR7_pollCount (s : State) : (linkR7 s).pollCount = s.pollCount := rfl
@[simp] theorem linkR7_console (s : State) : (linkR7 s).console = s.console := rfl

@[simp] theorem hold_regs (s : State) : (hold s).regs = s.regs := rfl
@[simp] theorem hold_pc (s : State) : (hold s).pc = s.pc - 1 := rfl
@[simp] theorem hold_cond (s : State) : (hold s).cond = s.cond := rfl
@[simp] theorem hold_mem (s : State) : (hold s).mem = s.mem := rfl
@[simp] theorem hold_run (s : State) : (hold s).run = s.run := rfl
@[simp] theorem hold_ir (s : State) : (hold s).ir = s.ir := rfl
@[simp] theorem hold_keyIn (s : State) : (hold s).keyIn = s.keyIn := rfl
@[simp] theorem hold_keyPolls (s : State) : (hold s).keyPolls = s.keyPolls := rfl
@[simp] theorem hold_pollCount (s : State) : (hold s).pollCount = s.pollCount := rfl
@[simp] theorem hold_console (s : State) : (hold s).console = s.console := rfl

@[simp] theorem trapEntry_regs (s : State) : (trapEntry s).regs = s.regs := rfl
@[simp] theorem trapEntry_pc (s : State) : (trapEntry s).pc = s.pc := rfl
@[simp] theorem trapEntry_cond (s : State) : (trapEntry s).cond = s.cond := rfl
@[simp] theorem trapEntry_mem (s : State) : (trapEntry s).mem = s.mem := rfl
@[simp] theorem trapEntry_run (s : State) : (trapEntry s).run = s.run := rfl
@[simp] theorem trapEntry_ir (s : State) : (trapEntry s).ir = s.ir := rfl
@[simp] theorem trapEntry_keyIn (s : State) : (trapEntry s).keyIn = s.keyIn := rfl
@[simp] theorem trapEntry_keyPolls (s : State) : (trapEntry s).keyPolls = s.keyPolls := rfl
@[simp] theorem trapEntry_pollCount (s : State) : (trapEntry s).pollCount = s.pollCount := rfl
@[simp] theorem trapEntry_console (s : State) : (trapEntry s).console = s.console := rfl

@[simp] theorem storeChar_regs (s : State) (c : Byte) : (storeChar s c).regs = s.regs.set .r0 (zext8 c) := rfl
@[simp] theorem storeChar_pc (s : State) (c : Byte) : (storeChar s c).pc = s.pc := rfl
@[simp] theorem storeChar_cond (s : State) (c : Byte) : (storeChar s c).cond = s.cond := rfl
@[simp] theorem storeChar_mem (s : State) (c : Byte) : (storeChar s c).mem = s.mem := rfl
@[simp] theorem storeChar_run (s : State) (c : Byte) : (storeChar s c).run = s.run := rfl
@[simp] theorem storeChar_ir (s : State) (c : Byte) : (storeChar s c).ir = s.ir := rfl
@[simp] theorem storeChar_keyIn (s : State) (c : Byte) : (storeChar s c).keyIn = s.keyIn := rfl
@[simp] theorem storeChar_keyPolls (s : State) (c : Byte) : (storeChar s c).keyPolls = s.keyPolls := rfl
@[simp] theorem storeChar_pollCount (s : State) (c : Byte) : (storeChar s c).pollCount = s.pollCount := rfl
@[simp] theorem storeChar_console (s : State) (c : Byte) : (storeChar s c).console = s.console := rfl

@[simp] theorem fetch_pc (s : State) : (fetch s).pc = s.pc + 1 := rfl
theorem fetch_mem (s : State) : (fetch s).mem = (memRead s s.pc).2.mem := rfl
theorem fetch_ir (s : State) : (fetch s).ir = (memRead s s.pc).1 := rfl
theorem fetch_keyIn (s : State) : (fetch s).keyIn = (memRead s s.pc).2.keyIn := rfl
theorem fetch_keyPolls (s : State) : (fetch s).keyPolls = (memRead s s.pc).2.keyPolls := rfl
theorem fetch_pollCount (s : State) : (fetch s).pollCount = (memRead s s.pc).2.pollCount := rfl

@[simp] theorem writeResult_cond (s : State) (dr : Reg) (v : Word) : (writeResult s dr v).cond = flagOf v := by
  simp [writeResult, State.reg]

/-! `R[i]` and `M[a]` of an updated state. -/

@[simp] theorem reg_setReg_self (s : State) (r : Reg) (v : Word) : (s.setReg r v).reg r = v := by
  simp [State.reg]

@[simp] theorem reg_setReg_ne (s : State) {r q : Reg} (v : Word) (h : q ≠ r) : (s.setReg r v).reg q = s.reg q := by
  simp [State.reg, h]

@[simp] theorem reg_writeResult_self (s : State) (r : Reg) (v : Word) : (writeResult s r v).reg r = v := by
  simp [State.reg]

@[simp] theorem reg_writeResult_ne (s : State) {r q : Reg} (v : Word) (h : q ≠ r) :
    (writeResult s r v).reg q = s.reg q := by
  simp [State.reg, h]

/-- `R[i]` depends on the register file alone. -/
theorem reg_congr {s t : State} (h : t.regs = s.regs) (r : Reg) : t.reg r = s.reg r := by simp [State.reg, h]

/-- `M[a]` depends on the memory alone. -/
theorem cell_congr {s t : State} (h : t.mem = s.mem) (a : Word) : t.cell a = s.cell a := by simp [State.cell, h]

end Sys2Proof.Laws
end

