-- ==== Sys2Proof/Laws/Decode.lean ====
section
/-! SUPPORT. What each field of an encoded word holds, one lemma per format and field, and the sign extension of a
field cut from a word in range. -/

namespace Sys2Proof.Laws

open Sys2Proof Sys2Proof.Machine

@[simp] theorem ofBits_toBits (r : Reg) : Reg.ofBits r.toBits = r := by cases r <;> rfl

@[simp] theorem toBits_ofBits (b : BitVec 3) : (Reg.ofBits b).toBits = b := by revert b; decide

/-- Every parameter `OP_<mnemonic>` selects its opcode (spec/30_encoding.md R54). -/
theorem opcodeOf_table :
    opcodeOf config.opBR = .br ∧ opcodeOf config.opADD = .add ∧ opcodeOf config.opLD = .ld ∧
    opcodeOf config.opST = .st ∧ opcodeOf config.opJSR = .jsr ∧ opcodeOf config.opAND = .and ∧
    opcodeOf config.opLDR = .ldr ∧ opcodeOf config.opSTR = .str ∧ opcodeOf config.opRTI = .rti ∧
    opcodeOf config.opNOT = .not ∧ opcodeOf config.opLDI = .ldi ∧ opcodeOf config.opSTI = .sti ∧
    opcodeOf config.opJMP = .jmp ∧ opcodeOf config.opRES = .res ∧ opcodeOf config.opLEA = .lea ∧
    opcodeOf config.opTRAP = .trap := by decide

/-! The opcode field of each format. -/

@[simp] theorem opcodeField_encodeOpReg (op : BitVec 4) (dr sr1 sr2 : Reg) : opcodeField (encodeOpReg op dr sr1 sr2) = op := by
  unfold opcodeField encodeOpReg place
  ext i hi
  interval_cases i <;> simp

@[simp] theorem opcodeField_encodeOpImm (op : BitVec 4) (dr sr1 : Reg) (imm : Word) : opcodeField (encodeOpImm op dr sr1 imm) = op := by
  unfold opcodeField encodeOpImm place
  ext i hi
  interval_cases i <;> simp

@[simp] theorem opcodeField_encodeNot (op : BitVec 4) (dr sr : Reg) : opcodeField (encodeNot op dr sr) = op := by
  unfold opcodeField encodeNot place
  ext i hi
  interval_cases i <;> simp

@[simp] theorem opcodeField_encodeBr (op : BitVec 4) (n z p : Bool) (off : Word) : opcodeField (encodeBr op n z p off) = op := by
  unfold opcodeField encodeBr place
  ext i hi
  interval_cases i <;> simp [config]

@[simp] theorem opcodeField_encodePcRel (op : BitVec 4) (r : Reg) (off : Word) : opcodeField (encodePcRel op r off) = op := by
  unfold opcodeField encodePcRel place
  ext i hi
  interval_cases i <;> simp

@[simp] theorem opcodeField_encodeBaseOff (op : BitVec 4) (r base : Reg) (off : Word) : opcodeField (encodeBaseOff op r base off) = op := by
  unfold opcodeField encodeBaseOff place
  ext i hi
  interval_cases i <;> simp

@[simp] theorem opcodeField_encodeJsr (op : BitVec 4) (off : Word) : opcodeField (encodeJsr op off) = op := by
  unfold opcodeField encodeJsr place
  ext i hi
  interval_cases i <;> simp [config]

@[simp] theorem opcodeField_encodeBase (op : BitVec 4) (base : Reg) : opcodeField (encodeBase op base) = op := by
  unfold opcodeField encodeBase place
  ext i hi
  interval_cases i <;> simp

@[simp] theorem opcodeField_encodeTrap (op : BitVec 4) (v : BitVec 8) : opcodeField (encodeTrap op v) = op := by
  unfold opcodeField encodeTrap place
  ext i hi
  interval_cases i <;> simp

@[simp] theorem opcodeField_encodeNone (op : BitVec 4) : opcodeField (encodeNone op) = op := by
  unfold opcodeField encodeNone place
  ext i hi
  interval_cases i <;> simp

/-! The register fields. -/

@[simp] theorem fieldDR_encodeOpReg (op : BitVec 4) (dr sr1 sr2 : Reg) : fieldDR (encodeOpReg op dr sr1 sr2) = dr := by
  have h : (encodeOpReg op dr sr1 sr2).extractLsb' 9 3 = dr.toBits := by
    unfold encodeOpReg place
    ext i hi
    interval_cases i <;> simp
  rw [fieldDR, h, ofBits_toBits]

@[simp] theorem fieldSR1_encodeOpReg (op : BitVec 4) (dr sr1 sr2 : Reg) : fieldSR1 (encodeOpReg op dr sr1 sr2) = sr1 := by
  have h : (encodeOpReg op dr sr1 sr2).extractLsb' 6 3 = sr1.toBits := by
    unfold encodeOpReg place
    ext i hi
    interval_cases i <;> simp
  rw [fieldSR1, h, ofBits_toBits]

@[simp] theorem fieldSR2_encodeOpReg (op : BitVec 4) (dr sr1 sr2 : Reg) : fieldSR2 (encodeOpReg op dr sr1 sr2) = sr2 := by
  have h : (encodeOpReg op dr sr1 sr2).extractLsb' 0 3 = sr2.toBits := by
    unfold encodeOpReg place
    ext i hi
    interval_cases i <;> simp
  rw [fieldSR2, h, ofBits_toBits]

@[simp] theorem fieldDR_encodeOpImm (op : BitVec 4) (dr sr1 : Reg) (imm : Word) : fieldDR (encodeOpImm op dr sr1 imm) = dr := by
  have h : (encodeOpImm op dr sr1 imm).extractLsb' 9 3 = dr.toBits := by
    unfold encodeOpImm place
    ext i hi
    interval_cases i <;> simp
  rw [fieldDR, h, ofBits_toBits]

@[simp] theorem fieldSR1_encodeOpImm (op : BitVec 4) (dr sr1 : Reg) (imm : Word) : fieldSR1 (encodeOpImm op dr sr1 imm) = sr1 := by
  have h : (encodeOpImm op dr sr1 imm).extractLsb' 6 3 = sr1.toBits := by
    unfold encodeOpImm place
    ext i hi
    interval_cases i <;> simp
  rw [fieldSR1, h, ofBits_toBits]

@[simp] theorem fieldDR_encodeNot (op : BitVec 4) (dr sr : Reg) : fieldDR (encodeNot op dr sr) = dr := by
  have h : (encodeNot op dr sr).extractLsb' 9 3 = dr.toBits := by
    unfold encodeNot place
    ext i hi
    interval_cases i <;> simp
  rw [fieldDR, h, ofBits_toBits]

@[simp] theorem fieldSR1_encodeNot (op : BitVec 4) (dr sr : Reg) : fieldSR1 (encodeNot op dr sr) = sr := by
  have h : (encodeNot op dr sr).extractLsb' 6 3 = sr.toBits := by
    unfold encodeNot place
    ext i hi
    interval_cases i <;> simp
  rw [fieldSR1, h, ofBits_toBits]

@[simp] theorem fieldDR_encodePcRel (op : BitVec 4) (r : Reg) (off : Word) : fieldDR (encodePcRel op r off) = r := by
  have h : (encodePcRel op r off).extractLsb' 9 3 = r.toBits := by
    unfold encodePcRel place
    ext i hi
    interval_cases i <;> simp
  rw [fieldDR, h, ofBits_toBits]

@[simp] theorem fieldDR_encodeBaseOff (op : BitVec 4) (r base : Reg) (off : Word) : fieldDR (encodeBaseOff op r base off) = r := by
  have h : (encodeBaseOff op r base off).extractLsb' 9 3 = r.toBits := by
    unfold encodeBaseOff place
    ext i hi
    interval_cases i <;> simp
  rw [fieldDR, h, ofBits_toBits]

@[simp] theorem fieldSR1_encodeBaseOff (op : BitVec 4) (r base : Reg) (off : Word) : fieldSR1 (encodeBaseOff op r base off) = base := by
  have h : (encodeBaseOff op r base off).extractLsb' 6 3 = base.toBits := by
    unfold encodeBaseOff place
    ext i hi
    interval_cases i <;> simp
  rw [fieldSR1, h, ofBits_toBits]

@[simp] theorem fieldSR1_encodeBase (op : BitVec 4) (base : Reg) : fieldSR1 (encodeBase op base) = base := by
  have h : (encodeBase op base).extractLsb' 6 3 = base.toBits := by
    unfold encodeBase place
    ext i hi
    interval_cases i <;> simp
  rw [fieldSR1, h, ofBits_toBits]

/-! The mode bits and the branch mask. -/

@[simp] theorem immFlag_encodeOpReg (op : BitVec 4) (dr sr1 sr2 : Reg) : immFlag (encodeOpReg op dr sr1 sr2) = false := by
  simp [immFlag, encodeOpReg, place]

@[simp] theorem immFlag_encodeOpImm (op : BitVec 4) (dr sr1 : Reg) (imm : Word) : immFlag (encodeOpImm op dr sr1 imm) = true := by
  simp [immFlag, encodeOpImm, place]

@[simp] theorem brNBit_encodeBr (op : BitVec 4) (n z p : Bool) (off : Word) :
    (encodeBr op n z p off).getLsbD config.brNBit = n := by
  simp [encodeBr, place, config]

@[simp] theorem brZBit_encodeBr (op : BitVec 4) (n z p : Bool) (off : Word) :
    (encodeBr op n z p off).getLsbD config.brZBit = z := by
  simp [encodeBr, place, config]

@[simp] theorem brPBit_encodeBr (op : BitVec 4) (n z p : Bool) (off : Word) :
    (encodeBr op n z p off).getLsbD config.brPBit = p := by
  simp [encodeBr, place, config]

@[simp] theorem jsrLongBit_encodeJsr (op : BitVec 4) (off : Word) :
    (encodeJsr op off).getLsbD config.jsrLongBit = true := by
  simp [encodeJsr, place, config]

@[simp] theorem jsrLongBit_encodeBase (op : BitVec 4) (base : Reg) :
    (encodeBase op base).getLsbD config.jsrLongBit = false := by
  simp [encodeBase, place, config]

/-! The immediate, the offsets and the vector. -/

@[simp] theorem fieldImm5_encodeOpImm (op : BitVec 4) (dr sr1 : Reg) (imm : Word) :
    fieldImm5 (encodeOpImm op dr sr1 imm) = sext (imm.setWidth 5) := by
  have h : (encodeOpImm op dr sr1 imm).extractLsb' 0 5 = imm.setWidth 5 := by
    unfold encodeOpImm place
    ext i hi
    interval_cases i <;> simp
  rw [fieldImm5, h]

@[simp] theorem fieldOffset9_encodeBr (op : BitVec 4) (n z p : Bool) (off : Word) :
    fieldOffset9 (encodeBr op n z p off) = sext (off.setWidth 9) := by
  have h : (encodeBr op n z p off).extractLsb' 0 9 = off.setWidth 9 := by
    unfold encodeBr place
    ext i hi
    interval_cases i <;> simp [config]
  rw [fieldOffset9, h]

@[simp] theorem fieldOffset9_encodePcRel (op : BitVec 4) (r : Reg) (off : Word) :
    fieldOffset9 (encodePcRel op r off) = sext (off.setWidth 9) := by
  have h : (encodePcRel op r off).extractLsb' 0 9 = off.setWidth 9 := by
    unfold encodePcRel place
    ext i hi
    interval_cases i <;> simp
  rw [fieldOffset9, h]

@[simp] theorem fieldOffset6_encodeBaseOff (op : BitVec 4) (r base : Reg) (off : Word) :
    fieldOffset6 (encodeBaseOff op r base off) = sext (off.setWidth 6) := by
  have h : (encodeBaseOff op r base off).extractLsb' 0 6 = off.setWidth 6 := by
    unfold encodeBaseOff place
    ext i hi
    interval_cases i <;> simp
  rw [fieldOffset6, h]

@[simp] theorem fieldOffset11_encodeJsr (op : BitVec 4) (off : Word) :
    fieldOffset11 (encodeJsr op off) = sext (off.setWidth 11) := by
  have h : (encodeJsr op off).extractLsb' 0 11 = off.setWidth 11 := by
    unfold encodeJsr place
    ext i hi
    interval_cases i <;> simp [config]
  rw [fieldOffset11, h]

@[simp] theorem trapVector_encodeTrap (op : BitVec 4) (v : BitVec 8) : trapVector (encodeTrap op v) = v := by
  unfold trapVector encodeTrap place
  ext i hi
  interval_cases i <;> simp

/-! Sign extension gives back a word in the range of its field (R53). -/

theorem sext_of_fitsImm5 {v : Word} (h : fitsImm5 v = true) : sext (v.setWidth 5) = v := by
  simp [fitsImm5, signedWithin] at h
  apply BitVec.eq_of_toInt_eq
  unfold sext
  rw [BitVec.toInt_signExtend_of_le (by omega), BitVec.toInt_setWidth]
  rw [BitVec.toInt_eq_toNat_cond] at *
  have := v.isLt
  simp only [Int.bmod]
  split at h <;> split <;> omega

/-- A sign-extended field is in range. -/
theorem fitsImm5_sext (b : BitVec 5) : fitsImm5 (sext b) = true := by
  have h1 := BitVec.le_toInt b
  have h2 := BitVec.toInt_lt (x := b)
  simp [fitsImm5, signedWithin, sext, BitVec.toInt_signExtend_of_le]
  omega

theorem sext_of_fitsOffset6 {v : Word} (h : fitsOffset6 v = true) : sext (v.setWidth 6) = v := by
  simp [fitsOffset6, signedWithin] at h
  apply BitVec.eq_of_toInt_eq
  unfold sext
  rw [BitVec.toInt_signExtend_of_le (by omega), BitVec.toInt_setWidth]
  rw [BitVec.toInt_eq_toNat_cond] at *
  have := v.isLt
  simp only [Int.bmod]
  split at h <;> split <;> omega

/-- A sign-extended field is in range. -/
theorem fitsOffset6_sext (b : BitVec 6) : fitsOffset6 (sext b) = true := by
  have h1 := BitVec.le_toInt b
  have h2 := BitVec.toInt_lt (x := b)
  simp [fitsOffset6, signedWithin, sext, BitVec.toInt_signExtend_of_le]
  omega

theorem sext_of_fitsOffset9 {v : Word} (h : fitsOffset9 v = true) : sext (v.setWidth 9) = v := by
  simp [fitsOffset9, signedWithin] at h
  apply BitVec.eq_of_toInt_eq
  unfold sext
  rw [BitVec.toInt_signExtend_of_le (by omega), BitVec.toInt_setWidth]
  rw [BitVec.toInt_eq_toNat_cond] at *
  have := v.isLt
  simp only [Int.bmod]
  split at h <;> split <;> omega

/-- A sign-extended field is in range. -/
theorem fitsOffset9_sext (b : BitVec 9) : fitsOffset9 (sext b) = true := by
  have h1 := BitVec.le_toInt b
  have h2 := BitVec.toInt_lt (x := b)
  simp [fitsOffset9, signedWithin, sext, BitVec.toInt_signExtend_of_le]
  omega

theorem sext_of_fitsOffset11 {v : Word} (h : fitsOffset11 v = true) : sext (v.setWidth 11) = v := by
  simp [fitsOffset11, signedWithin] at h
  apply BitVec.eq_of_toInt_eq
  unfold sext
  rw [BitVec.toInt_signExtend_of_le (by omega), BitVec.toInt_setWidth]
  rw [BitVec.toInt_eq_toNat_cond] at *
  have := v.isLt
  simp only [Int.bmod]
  split at h <;> split <;> omega

/-- A sign-extended field is in range. -/
theorem fitsOffset11_sext (b : BitVec 11) : fitsOffset11 (sext b) = true := by
  have h1 := BitVec.le_toInt b
  have h2 := BitVec.toInt_lt (x := b)
  simp [fitsOffset11, signedWithin, sext, BitVec.toInt_signExtend_of_le]
  omega

end Sys2Proof.Laws
end

