-- ==== Sys2Proof/Laws/Memory.lean ====
section
/-! SUPPORT. The laws of the memory array: a read after a write, and the canonical form that every write keeps. -/

namespace Sys2Proof.Laws

open Sys2Proof Sys2Proof.Machine

theorem read_erase_self (m : Memory) (a : Nat) : Memory.read (Memory.erase m a) a = Memory.blank := by
  induction m with
  | nil => rfl
  | cons c m ih =>
    by_cases h : c.1 = a
    · simpa [Memory.erase, h] using ih
    · simpa [Memory.erase, Memory.read, h] using ih

theorem read_erase_ne (m : Memory) {a b : Nat} (h : b ≠ a) :
    Memory.read (Memory.erase m a) b = Memory.read m b := by
  induction m with
  | nil => rfl
  | cons c m ih =>
    by_cases hc : c.1 = a
    · have hb : c.1 ≠ b := by omega
      simpa [Memory.erase, Memory.read, hc, hb, Ne.symm h] using ih
    · by_cases hb : c.1 = b
      · simp [Memory.erase, Memory.read, hb, h]
      · simpa [Memory.erase, Memory.read, hc, hb] using ih

theorem read_insert_ne (m : Memory) {a b : Nat} (v : Word) (h : b ≠ a) :
    Memory.read (Memory.insert m a v) b = Memory.read m b := by
  induction m with
  | nil => simp [Memory.insert, Memory.read, Ne.symm h]
  | cons c m ih =>
    by_cases hc : a < c.1
    · simp [Memory.insert, Memory.read, hc, Ne.symm h]
    · by_cases hb : c.1 = b
      · subst hb
        simp [Memory.insert, Memory.read, hc]
      · simpa [Memory.insert, Memory.read, hc, hb] using ih

theorem read_insert_self (m : Memory) (a : Nat) (v : Word) (h : ∀ c ∈ m, c.1 ≠ a) :
    Memory.read (Memory.insert m a v) a = v := by
  induction m with
  | nil => simp [Memory.insert, Memory.read]
  | cons c m ih =>
    by_cases hc : a < c.1
    · simp [Memory.insert, Memory.read, hc]
    · have hne : c.1 ≠ a := h c (by simp)
      simpa [Memory.insert, Memory.read, hc, hne] using ih (fun d hd => h d (by simp [hd]))

theorem mem_erase {m : Memory} {a : Nat} {c : Nat × Word} : c ∈ Memory.erase m a ↔ c ∈ m ∧ c.1 ≠ a := by
  simp [Memory.erase]

/-- A read after a write to the same address gives the value written. -/
@[simp] theorem read_write_self (m : Memory) (a : Nat) (v : Word) : Memory.read (Memory.write m a v) a = v := by
  unfold Memory.write
  split
  · next h => rw [read_erase_self, h]
  · exact read_insert_self _ _ _ (fun c hc => (mem_erase.mp hc).2)

/-- A write leaves every other address alone. -/
@[simp] theorem read_write_ne (m : Memory) {a b : Nat} (v : Word) (h : b ≠ a) :
    Memory.read (Memory.write m a v) b = Memory.read m b := by
  unfold Memory.write
  split
  · exact read_erase_ne m h
  · rw [read_insert_ne _ _ h, read_erase_ne m h]

theorem wf_cons {c : Nat × Word} {m : Memory} :
    Memory.wf (c :: m) = true ↔
      c.1 < 65536 ∧ c.2 ≠ Memory.blank ∧ (∀ d ∈ m, c.1 < d.1) ∧ Memory.wf m = true := by
  simp [Memory.wf, and_assoc]

theorem wf_erase {m : Memory} (a : Nat) (h : Memory.wf m = true) : Memory.wf (Memory.erase m a) = true := by
  induction m with
  | nil => rfl
  | cons c m ih =>
    obtain ⟨h1, h2, h3, h4⟩ := wf_cons.mp h
    by_cases hc : c.1 = a
    · simpa [Memory.erase, hc] using ih h4
    · have : Memory.erase (c :: m) a = c :: Memory.erase m a := by simp [Memory.erase, hc]
      rw [this]
      exact wf_cons.mpr ⟨h1, h2, fun d hd => h3 d (mem_erase.mp hd).1, ih h4⟩

theorem mem_insert {m : Memory} {a : Nat} {v : Word} {c : Nat × Word} :
    c ∈ Memory.insert m a v ↔ c = (a, v) ∨ c ∈ m := by
  induction m with
  | nil => simp [Memory.insert]
  | cons d m ih =>
    unfold Memory.insert
    split
    · simp
    · simp [ih, or_left_comm]

theorem wf_insert {m : Memory} {a : Nat} {v : Word} (ha : a < 65536) (hv : v ≠ Memory.blank)
    (hm : ∀ c ∈ m, c.1 ≠ a) (h : Memory.wf m = true) : Memory.wf (Memory.insert m a v) = true := by
  induction m with
  | nil => exact wf_cons.mpr ⟨ha, hv, by simp, rfl⟩
  | cons c m ih =>
    obtain ⟨h1, h2, h3, h4⟩ := wf_cons.mp h
    unfold Memory.insert
    split
    · next hlt =>
      refine wf_cons.mpr ⟨ha, hv, ?_, h⟩
      intro d hd
      rcases List.mem_cons.mp hd with rfl | hd
      · exact hlt
      · exact Nat.lt_trans hlt (h3 d hd)
    · next hlt =>
      have hne : c.1 ≠ a := hm c (by simp)
      refine wf_cons.mpr ⟨h1, h2, ?_, ih (fun d hd => hm d (by simp [hd])) h4⟩
      intro d hd
      rcases mem_insert.mp hd with rfl | hd
      · show c.1 < a
        omega
      · exact h3 d hd

/-- A write inside the address space keeps the canonical form. -/
theorem wf_write {m : Memory} {a : Nat} (v : Word) (ha : a < 65536) (h : Memory.wf m = true) :
    Memory.wf (Memory.write m a v) = true := by
  unfold Memory.write
  split
  · exact wf_erase a h
  · next hv => exact wf_insert ha hv (fun c hc => (mem_erase.mp hc).2) (wf_erase a h)

/-- The first entry of a canonical list is where it reads. -/
theorem read_below {m : Memory} {a : Nat} (h : ∀ c ∈ m, a < c.1) : Memory.read m a = Memory.blank := by
  induction m with
  | nil => rfl
  | cons c m ih =>
    have hc : c.1 ≠ a := by have := h c (by simp); omega
    simpa [Memory.read, hc] using ih (fun d hd => h d (by simp [hd]))

/-- Canonical memories that read alike everywhere are equal lists. -/
theorem wf_ext {m n : Memory} (hm : Memory.wf m = true) (hn : Memory.wf n = true)
    (h : ∀ a, Memory.read m a = Memory.read n a) : m = n := by
  induction m generalizing n with
  | nil =>
    cases n with
    | nil => rfl
    | cons d n =>
      obtain ⟨_, h2, _, _⟩ := wf_cons.mp hn
      have := h d.1
      simp [Memory.read] at this
      exact absurd this.symm h2
  | cons c m ih =>
    obtain ⟨hc1, hc2, hc3, hc4⟩ := wf_cons.mp hm
    cases n with
    | nil =>
      have := h c.1
      simp [Memory.read] at this
      exact absurd this hc2
    | cons d n =>
      obtain ⟨hd1, hd2, hd3, hd4⟩ := wf_cons.mp hn
      have key : c.1 = d.1 := by
        by_contra hne
        rcases Nat.lt_or_gt_of_ne hne with hlt | hlt
        · have := h c.1
          rw [read_below (m := d :: n) (a := c.1)
            (by simpa [hlt] using fun x y hxy => Nat.lt_trans hlt (hd3 (x, y) hxy))] at this
          simp [Memory.read] at this
          exact hc2 this
        · have := h d.1
          rw [read_below (m := c :: m) (a := d.1)
            (by simpa [hlt] using fun x y hxy => Nat.lt_trans hlt (hc3 (x, y) hxy))] at this
          simp [Memory.read] at this
          exact hd2 this.symm
      have hv : c.2 = d.2 := by
        have := h c.1
        simpa [Memory.read, key] using this
      have hcd : c = d := Prod.ext key hv
      subst hcd
      congr 1
      refine ih hc4 hd4 (fun a => ?_)
      by_cases ha : c.1 = a
      · subst ha
        rw [read_below hc3, read_below hd3]
      · have := h a
        simpa [Memory.read, ha] using this

/-! The same laws on the state. -/

@[simp] theorem cell_setCell_self (s : State) (a v : Word) : (s.setCell a v).cell a = v := by
  simp [State.cell]

@[simp] theorem cell_setCell_ne (s : State) {a b : Word} (v : Word) (h : b ≠ a) :
    (s.setCell a v).cell b = s.cell b := by
  have : b.toNat ≠ a.toNat := fun e => h (BitVec.eq_of_toNat_eq e)
  simp [State.cell, this]

theorem wf_setCell {s : State} (a v : Word) (h : Memory.wf s.mem = true) : Memory.wf (s.setCell a v).mem = true := by
  simpa using wf_write v a.isLt h

end Sys2Proof.Laws
end

