-- ==== Sys2Proof/Laws/Ops.lean ====
section
/-! SUPPORT. Everything the shared operations can do: the keyboard poll, the read primitive, the fetch. Later proofs
cite these and do not unfold the operations. -/

namespace Sys2Proof.Laws

open Sys2Proof Sys2Proof.Machine

/-- The two mapped addresses are distinct (spec/92_eei_decisions.md D5). -/
theorem kbdr_ne_kbsr : config.kbdrAddr ≠ config.kbsrAddr := by decide

/-! The poll. -/

/-- A poll without a key: the status word is cleared, nothing is consumed. -/
theorem pollKeyboard_of_not_avail {s : State} (h : kbdAvail s = false) :
    pollKeyboard s = s.pollMade.setCell config.kbsrAddr 0 := by
  simp [pollKeyboard, h]

/-- A poll that finds a key: the status word is set ready, the character goes to the data word and is consumed. -/
theorem pollKeyboard_of_avail {s : State} {c : Byte} {rest : List Byte} (hk : s.keyIn = c :: rest)
    (h : kbdAvail s = true) : pollKeyboard s = storeKey { s.pollMade with keyIn := rest } c := by
  simp [pollKeyboard, h, kbdRead, hk]

/-- A key is found only where a character is there. -/
theorem kbdAvail_false_of_empty {s : State} (h : s.keyIn = []) : kbdAvail s = false := by
  simp [kbdAvail, h]

/-- The two outcomes of a poll. -/
theorem pollKeyboard_cases (s : State) :
    (kbdAvail s = false ∧ pollKeyboard s = s.pollMade.setCell config.kbsrAddr 0) ∨
      ∃ c rest, s.keyIn = c :: rest ∧ kbdAvail s = true ∧
        pollKeyboard s = storeKey { s.pollMade with keyIn := rest } c := by
  by_cases h : kbdAvail s = true
  · cases hk : s.keyIn with
    | nil => simp [kbdAvail, hk] at h
    | cons c rest => exact .inr ⟨c, rest, rfl, h, pollKeyboard_of_avail hk h⟩
  · have h : kbdAvail s = false := by simpa using h
    exact .inl ⟨h, pollKeyboard_of_not_avail h⟩

@[simp] theorem storeKey_regs (s : State) (c : Byte) : (storeKey s c).regs = s.regs := rfl
@[simp] theorem storeKey_pc (s : State) (c : Byte) : (storeKey s c).pc = s.pc := rfl
@[simp] theorem storeKey_cond (s : State) (c : Byte) : (storeKey s c).cond = s.cond := rfl
@[simp] theorem storeKey_run (s : State) (c : Byte) : (storeKey s c).run = s.run := rfl
@[simp] theorem storeKey_ir (s : State) (c : Byte) : (storeKey s c).ir = s.ir := rfl
@[simp] theorem storeKey_keyIn (s : State) (c : Byte) : (storeKey s c).keyIn = s.keyIn := rfl
@[simp] theorem storeKey_keyPolls (s : State) (c : Byte) : (storeKey s c).keyPolls = s.keyPolls := rfl
@[simp] theorem storeKey_pollCount (s : State) (c : Byte) : (storeKey s c).pollCount = s.pollCount := rfl
@[simp] theorem storeKey_console (s : State) (c : Byte) : (storeKey s c).console = s.console := rfl

/-- What a poll leaves alone. -/
theorem pollKeyboard_frame (s : State) : SameButPolls s (pollKeyboard s) := by
  obtain ⟨-, e⟩ | ⟨c, rest, -, -, e⟩ := pollKeyboard_cases s <;> rw [e]
  · refine ⟨rfl, rfl, rfl, rfl, rfl, rfl, fun a ha => ?_⟩
    simp only [List.mem_cons, List.not_mem_nil, or_false, not_or] at ha
    exact cell_setCell_ne s.pollMade 0 ha.1
  · refine ⟨rfl, rfl, rfl, rfl, rfl, rfl, fun a ha => ?_⟩
    simp only [List.mem_cons, List.not_mem_nil, or_false, not_or] at ha
    rw [storeKey, cell_setCell_ne _ _ ha.2, cell_setCell_ne _ _ ha.1]
    rfl

theorem wf_pollKeyboard {s : State} (h : Memory.wf s.mem = true) : Memory.wf (pollKeyboard s).mem = true := by
  obtain ⟨-, e⟩ | ⟨c, rest, -, -, e⟩ := pollKeyboard_cases s <;> rw [e]
  · exact wf_setCell (s := s.pollMade) _ _ h
  · exact wf_setCell (s := State.setCell { s.pollMade with keyIn := rest } _ _) _ _
      (wf_setCell (s := { s.pollMade with keyIn := rest }) _ _ h)

/-! The read primitive. -/

/-- A read of any address but KBSR_ADDR is plain (spec/20_memory.md R31, R34). -/
@[simp] theorem memRead_plain {s : State} {a : Word} (h : a ≠ config.kbsrAddr) : memRead s a = (s.cell a, s) := by
  simp [memRead, h]

/-- A read of KBSR_ADDR polls first (R31). -/
theorem memRead_kbsr (s : State) :
    memRead s config.kbsrAddr = ((pollKeyboard s).cell config.kbsrAddr, pollKeyboard s) := by
  simp [memRead]

/-- The word read is what the address holds after the read. -/
theorem memRead_fst (s : State) (a : Word) : (memRead s a).1 = (memRead s a).2.cell a := rfl

/-- The state after a read is the state before it, or the polled state. -/
theorem memRead_snd (s : State) (a : Word) :
    (memRead s a).2 = if a = config.kbsrAddr then pollKeyboard s else s := rfl

theorem sameButPolls_refl (s : State) : SameButPolls s s :=
  ⟨rfl, rfl, rfl, rfl, rfl, rfl, fun _ _ => rfl⟩

theorem sameButPolls_trans {s t u : State} (h : SameButPolls s t) (k : SameButPolls t u) : SameButPolls s u := by
  obtain ⟨h1, h2, h3, h4, h5, h6, h7⟩ := h
  obtain ⟨k1, k2, k3, k4, k5, k6, k7⟩ := k
  exact ⟨k1.trans h1, k2.trans h2, k3.trans h3, k4.trans h4, k5.trans h5, k6.trans h6,
    fun a ha => (k7 a ha).trans (h7 a ha)⟩

/-- What a read leaves alone. -/
theorem memRead_frame (s : State) (a : Word) : SameButPolls s (memRead s a).2 := by
  rw [memRead_snd]
  split
  · exact pollKeyboard_frame s
  · exact sameButPolls_refl s

@[simp] theorem memRead_regs (s : State) (a : Word) : (memRead s a).2.regs = s.regs := (memRead_frame s a).1
@[simp] theorem memRead_pc (s : State) (a : Word) : (memRead s a).2.pc = s.pc := (memRead_frame s a).2.1
@[simp] theorem memRead_cond (s : State) (a : Word) : (memRead s a).2.cond = s.cond := (memRead_frame s a).2.2.1
@[simp] theorem memRead_run (s : State) (a : Word) : (memRead s a).2.run = s.run := (memRead_frame s a).2.2.2.1
@[simp] theorem memRead_ir (s : State) (a : Word) : (memRead s a).2.ir = s.ir := (memRead_frame s a).2.2.2.2.1
@[simp] theorem memRead_console (s : State) (a : Word) : (memRead s a).2.console = s.console :=
  (memRead_frame s a).2.2.2.2.2.1
@[simp] theorem memRead_reg (s : State) (a : Word) (r : Reg) : (memRead s a).2.reg r = s.reg r :=
  reg_congr (memRead_regs s a) r

theorem wf_memRead {s : State} (a : Word) (h : Memory.wf s.mem = true) : Memory.wf (memRead s a).2.mem = true := by
  rw [memRead_snd]
  split
  · exact wf_pollKeyboard h
  · exact h

/-- A read consumes input from the front only. -/
theorem memRead_keyIn_suffix (s : State) (a : Word) : (memRead s a).2.keyIn <:+ s.keyIn := by
  rw [memRead_snd]
  split
  · obtain ⟨-, e⟩ | ⟨c, rest, hk, -, e⟩ := pollKeyboard_cases s <;> rw [e]
    · exact List.suffix_rfl
    · rw [hk]
      exact List.suffix_cons c rest
  · exact List.suffix_rfl

/-! The fetch phase. -/

/-- A fetch from anywhere but KBSR_ADDR: the word at the PC into IR, the PC one further, nothing else. -/
theorem fetch_plain {s : State} (h : s.pc ≠ config.kbsrAddr) :
    fetch s = { s with ir := s.cell s.pc, pc := s.pc + 1 } := by
  simp [fetch, h]

theorem wf_fetch {s : State} (h : Memory.wf s.mem = true) : Memory.wf (fetch s).mem = true :=
  wf_memRead (s := s) s.pc h

@[simp] theorem fetch_regs (s : State) : (fetch s).regs = s.regs := memRead_regs s s.pc
@[simp] theorem fetch_cond (s : State) : (fetch s).cond = s.cond := memRead_cond s s.pc
@[simp] theorem fetch_run (s : State) : (fetch s).run = s.run := memRead_run s s.pc
@[simp] theorem fetch_console (s : State) : (fetch s).console = s.console := memRead_console s s.pc
@[simp] theorem fetch_reg (s : State) (r : Reg) : (fetch s).reg r = s.reg r := reg_congr (by simp) r

end Sys2Proof.Laws
end

