-- ==== Sys2Proof/Laws/PerInstr.lean ====
section
/-! SUPPORT. Per instruction: the word `encode` writes is one of its row of spec/opcode_table.json (`match`, `mask`). -/

namespace Sys2Proof.Laws.TableRow

open Sys2Proof Sys2Proof.Machine

/-- `match` and `mask` of the instruction's row in spec/opcode_table.json. -/
def row : Instr → Word × Word
  | .addReg _ _ _ => (0x1000, 0xF020)
  | .addImm _ _ _ => (0x1020, 0xF020)
  | .andReg _ _ _ => (0x5000, 0xF020)
  | .andImm _ _ _ => (0x5020, 0xF020)
  | .notReg _ _ => (0x9000, 0xF000)
  | .br _ _ _ _ => (0x0000, 0xF000)
  | .jmp _ => (0xC000, 0xF000)
  | .jsr _ => (0x4800, 0xF800)
  | .jsrr _ => (0x4000, 0xF800)
  | .ld _ _ => (0x2000, 0xF000)
  | .ldi _ _ => (0xA000, 0xF000)
  | .ldr _ _ _ => (0x6000, 0xF000)
  | .lea _ _ => (0xE000, 0xF000)
  | .st _ _ => (0x3000, 0xF000)
  | .sti _ _ => (0xB000, 0xF000)
  | .str _ _ _ => (0x7000, 0xF000)
  | .trapGetc => (0xF020, 0xF0FF)
  | .trapOut => (0xF021, 0xF0FF)
  | .trapPuts => (0xF022, 0xF0FF)
  | .trapIn => (0xF023, 0xF0FF)
  | .trapPutsp => (0xF024, 0xF0FF)
  | .trapHalt => (0xF025, 0xF0FF)
  | .rti => (0x8000, 0xF000)
  | .res => (0xD000, 0xF000)

/-- The opcode bits of a word. -/
theorem and_opcode (w : Word) : w &&& 0xF000#16 = place 12 (opcodeField w) := by
  unfold opcodeField place
  ext i hi
  interval_cases i <;> simp

/-- The opcode bits and the immediate-mode flag of a word. -/
theorem and_mode (w : Word) : w &&& 0xF020#16 = place 12 (opcodeField w) ||| place 5 (BitVec.ofBool (immFlag w)) := by
  unfold opcodeField immFlag place
  ext i hi
  interval_cases i <;> simp

/-- The opcode bits and the long flag of a word. -/
theorem and_long (w : Word) :
    w &&& 0xF800#16 = place 12 (opcodeField w) ||| place 11 (BitVec.ofBool (w.getLsbD config.jsrLongBit)) := by
  have h : config.jsrLongBit = 11 := rfl
  rw [h]
  unfold opcodeField place
  ext i hi
  interval_cases i <;> simp

/-- The encoded word shows the row's fixed bits. -/
def Statement (i : Instr) : Prop := encode i &&& (row i).2 = (row i).1

theorem addReg (dr : Reg) (sr1 : Reg) (sr2 : Reg) : Statement (.addReg dr sr1 sr2) := by
  refine (and_mode (encodeOpReg config.opADD dr sr1 sr2)).trans ?_
  rw [opcodeField_encodeOpReg, immFlag_encodeOpReg]
  rfl

theorem addImm (dr : Reg) (sr1 : Reg) (imm : Word) : Statement (.addImm dr sr1 imm) := by
  refine (and_mode (encodeOpImm config.opADD dr sr1 imm)).trans ?_
  rw [opcodeField_encodeOpImm, immFlag_encodeOpImm]
  rfl

theorem andReg (dr : Reg) (sr1 : Reg) (sr2 : Reg) : Statement (.andReg dr sr1 sr2) := by
  refine (and_mode (encodeOpReg config.opAND dr sr1 sr2)).trans ?_
  rw [opcodeField_encodeOpReg, immFlag_encodeOpReg]
  rfl

theorem andImm (dr : Reg) (sr1 : Reg) (imm : Word) : Statement (.andImm dr sr1 imm) := by
  refine (and_mode (encodeOpImm config.opAND dr sr1 imm)).trans ?_
  rw [opcodeField_encodeOpImm, immFlag_encodeOpImm]
  rfl

theorem notReg (dr : Reg) (sr : Reg) : Statement (.notReg dr sr) := by
  refine (and_opcode (encodeNot config.opNOT dr sr)).trans ?_
  rw [opcodeField_encodeNot]
  rfl

theorem br (n : Bool) (z : Bool) (p : Bool) (off : Word) : Statement (.br n z p off) := by
  refine (and_opcode (encodeBr config.opBR n z p off)).trans ?_
  rw [opcodeField_encodeBr]
  rfl

theorem jmp (base : Reg) : Statement (.jmp base) := by
  refine (and_opcode (encodeBase config.opJMP base)).trans ?_
  rw [opcodeField_encodeBase]
  rfl

theorem jsr (off : Word) : Statement (.jsr off) := by
  refine (and_long (encodeJsr config.opJSR off)).trans ?_
  rw [opcodeField_encodeJsr, jsrLongBit_encodeJsr]
  rfl

theorem jsrr (base : Reg) : Statement (.jsrr base) := by
  refine (and_long (encodeBase config.opJSR base)).trans ?_
  rw [opcodeField_encodeBase, jsrLongBit_encodeBase]
  rfl

theorem ld (dr : Reg) (off : Word) : Statement (.ld dr off) := by
  refine (and_opcode (encodePcRel config.opLD dr off)).trans ?_
  rw [opcodeField_encodePcRel]
  rfl

theorem ldi (dr : Reg) (off : Word) : Statement (.ldi dr off) := by
  refine (and_opcode (encodePcRel config.opLDI dr off)).trans ?_
  rw [opcodeField_encodePcRel]
  rfl

theorem ldr (dr : Reg) (base : Reg) (off : Word) : Statement (.ldr dr base off) := by
  refine (and_opcode (encodeBaseOff config.opLDR dr base off)).trans ?_
  rw [opcodeField_encodeBaseOff]
  rfl

theorem lea (dr : Reg) (off : Word) : Statement (.lea dr off) := by
  refine (and_opcode (encodePcRel config.opLEA dr off)).trans ?_
  rw [opcodeField_encodePcRel]
  rfl

theorem st (sr : Reg) (off : Word) : Statement (.st sr off) := by
  refine (and_opcode (encodePcRel config.opST sr off)).trans ?_
  rw [opcodeField_encodePcRel]
  rfl

theorem sti (sr : Reg) (off : Word) : Statement (.sti sr off) := by
  refine (and_opcode (encodePcRel config.opSTI sr off)).trans ?_
  rw [opcodeField_encodePcRel]
  rfl

theorem str (sr : Reg) (base : Reg) (off : Word) : Statement (.str sr base off) := by
  refine (and_opcode (encodeBaseOff config.opSTR sr base off)).trans ?_
  rw [opcodeField_encodeBaseOff]
  rfl

theorem trapGetc : Statement .trapGetc := by unfold Statement; decide

theorem trapOut : Statement .trapOut := by unfold Statement; decide

theorem trapPuts : Statement .trapPuts := by unfold Statement; decide

theorem trapIn : Statement .trapIn := by unfold Statement; decide

theorem trapPutsp : Statement .trapPutsp := by unfold Statement; decide

theorem trapHalt : Statement .trapHalt := by unfold Statement; decide

theorem rti : Statement .rti := by unfold Statement; decide

theorem res : Statement .res := by unfold Statement; decide

end Sys2Proof.Laws.TableRow
end

