-- ==== Sys2Proof/Laws/Strings.lean ====
section
/-! SUPPORT. The string loops of PUTS and PUTSP: they end within `stringFuel` reads in every state
(spec/44_trap_reserved.md R122, since the input stream of a state is finite), and what they leave alone. -/

namespace Sys2Proof.Laws

open Sys2Proof Sys2Proof.Machine

/-- How many reads from address `a` on until KBSR_ADDR has been read, that read included. -/
def readsToKbsr (a : Word) : Nat := (config.kbsrAddr - a).toNat + 1

theorem readsToKbsr_le (a : Word) : readsToKbsr a ≤ 65536 := by
  have := (config.kbsrAddr - a).isLt
  unfold readsToKbsr
  omega

theorem readsToKbsr_pos (a : Word) : 1 ≤ readsToKbsr a := Nat.le_add_left 1 _

theorem toNat_pred {d : Word} (h : d ≠ 0#16) : d.toNat = (d - 1#16).toNat + 1 := by
  have h2 : d.toNat ≠ 0 := fun e => h (BitVec.eq_of_toNat_eq (by simpa using e))
  have h3 : (1#16) ≤ d := by
    rw [BitVec.le_def]
    simp
    omega
  rw [BitVec.toNat_sub_of_le h3]
  simp
  omega

theorem readsToKbsr_next {a : Word} (h : a ≠ config.kbsrAddr) : readsToKbsr a = readsToKbsr (a + 1) + 1 := by
  have h1 : config.kbsrAddr - a ≠ 0#16 := fun e => h (by
    have := congrArg (· + a) e
    simpa using this.symm)
  have h3 : config.kbsrAddr - a - 1#16 = config.kbsrAddr - (a + 1) := by
    rw [BitVec.sub_sub]
    rfl
  unfold readsToKbsr
  rw [toNat_pred h1, h3]

/-- A read of KBSR_ADDR that returns a nonzero word has consumed a character. -/
theorem keyIn_shorter_of_poll {s : State} (h : (memRead s config.kbsrAddr).1 ≠ 0) :
    (memRead s config.kbsrAddr).2.keyIn.length + 1 = s.keyIn.length := by
  rw [memRead_kbsr] at h ⊢
  obtain ⟨-, e⟩ | ⟨c, rest, hk, -, e⟩ := pollKeyboard_cases s
  · rw [e] at h
    simp at h
  · simp [e, hk]

/-- PUTS ends: enough reads for the way to KBSR_ADDR and, for each character of the input, once around memory. -/
theorem putsWalk_ends_aux (n : Nat) :
    ∀ (a : Word) (s : State), readsToKbsr a + 65536 * s.keyIn.length ≤ n → ∃ t, putsWalk n a s = some t := by
  induction n with
  | zero => intro a s h; have := readsToKbsr_pos a; omega
  | succ n ih =>
    intro a s h
    unfold putsWalk
    by_cases hz : (memRead s a).1 = 0
    · exact ⟨_, if_pos hz⟩
    · simp only [hz, if_false]
      refine ih _ _ ?_
      rw [conOut_keyIn]
      by_cases ha : a = config.kbsrAddr
      · subst ha
        have h1 := keyIn_shorter_of_poll hz
        have h2 := readsToKbsr_le (config.kbsrAddr + 1)
        have h3 := readsToKbsr_pos config.kbsrAddr
        omega
      · have h1 := readsToKbsr_next ha
        simp only [memRead_plain ha]
        omega

/-- PUTS always ends within its fuel. -/
theorem putsWalk_ends (a : Word) (s : State) : ∃ t, putsWalk (stringFuel s) a s = some t := by
  refine putsWalk_ends_aux _ a s ?_
  have := readsToKbsr_le a
  unfold stringFuel
  omega

/-- PUTSP ends, as PUTS does. -/
theorem putspWalk_ends_aux (n : Nat) :
    ∀ (a : Word) (s : State), readsToKbsr a + 65536 * s.keyIn.length ≤ n → ∃ t, putspWalk n a s = some t := by
  induction n with
  | zero => intro a s h; have := readsToKbsr_pos a; omega
  | succ n ih =>
    intro a s h
    unfold putspWalk
    by_cases hl : lowByte (memRead s a).1 = 0
    · exact ⟨_, if_pos hl⟩
    · by_cases hh : highByte (memRead s a).1 = 0
      · exact ⟨_, (if_neg hl).trans (if_pos hh)⟩
      · simp only [hl, hh, if_false]
        refine ih _ _ ?_
        rw [conOut_keyIn, conOut_keyIn]
        by_cases ha : a = config.kbsrAddr
        · subst ha
          have hz : (memRead s config.kbsrAddr).1 ≠ 0 := fun e => hl (by rw [e]; rfl)
          have h1 := keyIn_shorter_of_poll hz
          have h2 := readsToKbsr_le (config.kbsrAddr + 1)
          have h3 := readsToKbsr_pos config.kbsrAddr
          omega
        · have h1 := readsToKbsr_next ha
          simp only [memRead_plain ha]
          omega

/-- PUTSP always ends within its fuel. -/
theorem putspWalk_ends (a : Word) (s : State) : ∃ t, putspWalk (stringFuel s) a s = some t := by
  refine putspWalk_ends_aux _ a s ?_
  have := readsToKbsr_le a
  unfold stringFuel
  omega

/-- What the string loops leave alone: everything but what polls may change and the console output. -/
def StringFrame (s t : State) : Prop :=
  t.regs = s.regs ∧ t.pc = s.pc ∧ t.cond = s.cond ∧ t.run = s.run ∧ t.ir = s.ir ∧
    SameCellsBut [config.kbsrAddr, config.kbdrAddr] s t ∧ s.console <+: t.console ∧ t.keyIn <:+ s.keyIn ∧
    (Memory.wf s.mem = true → Memory.wf t.mem = true)

theorem stringFrame_read (s : State) (a : Word) : StringFrame s (memRead s a).2 := by
  obtain ⟨h1, h2, h3, h4, h5, h6, h7⟩ := memRead_frame s a
  exact ⟨h1, h2, h3, h4, h5, h7, by rw [h6], memRead_keyIn_suffix s a, wf_memRead a⟩

theorem stringFrame_conOut (s : State) (b : Byte) : StringFrame s (s.conOut b) :=
  ⟨rfl, rfl, rfl, rfl, rfl, fun _ _ => rfl, List.prefix_append _ _, List.suffix_rfl, id⟩

theorem stringFrame_trans {s t u : State} (h : StringFrame s t) (k : StringFrame t u) : StringFrame s u := by
  obtain ⟨h1, h2, h3, h4, h5, h6, h7, h8, h9⟩ := h
  obtain ⟨k1, k2, k3, k4, k5, k6, k7, k8, k9⟩ := k
  exact ⟨k1.trans h1, k2.trans h2, k3.trans h3, k4.trans h4, k5.trans h5,
    fun a ha => (k6 a ha).trans (h6 a ha), h7.trans k7, k8.trans h8, k9 ∘ h9⟩

theorem putsWalk_frame (n : Nat) : ∀ {a : Word} {s t : State}, putsWalk n a s = some t → StringFrame s t := by
  induction n with
  | zero => intro a s t h; simp [putsWalk] at h
  | succ n ih =>
    intro a s t h
    unfold putsWalk at h
    by_cases hz : (memRead s a).1 = 0
    · simp only [hz, if_true, Option.some.injEq] at h
      exact h ▸ stringFrame_read s a
    · simp only [hz, if_false] at h
      exact stringFrame_trans (stringFrame_trans (stringFrame_read s a) (stringFrame_conOut _ _)) (ih h)

theorem putspWalk_frame (n : Nat) : ∀ {a : Word} {s t : State}, putspWalk n a s = some t → StringFrame s t := by
  induction n with
  | zero => intro a s t h; simp [putspWalk] at h
  | succ n ih =>
    intro a s t h
    unfold putspWalk at h
    by_cases hl : lowByte (memRead s a).1 = 0
    · simp only [hl, if_true, Option.some.injEq] at h
      exact h ▸ stringFrame_read s a
    · by_cases hh : highByte (memRead s a).1 = 0
      · simp only [hl, hh, if_true, if_false, Option.some.injEq] at h
        exact h ▸ stringFrame_trans (stringFrame_read s a) (stringFrame_conOut _ _)
      · simp only [hl, hh, if_false] at h
        exact stringFrame_trans (stringFrame_trans (stringFrame_trans (stringFrame_read s a)
          (stringFrame_conOut _ _)) (stringFrame_conOut _ _)) (ih h)

end Sys2Proof.Laws
end

