-- ==== Sys2Proof/Laws/Step.lean ====
section
/-! SUPPORT. Everything a step can do: it is refused or faults only where the run has ended, and from a Running core it
holds, takes the undefined-vector fault, or runs the decoded instruction. And the string routines as they complete. -/

namespace Sys2Proof.Laws

open Sys2Proof Sys2Proof.Machine

/-- Only GETC and IN can wait. -/
theorem awaitsKey_of_ne {i : Instr} {s : State} (h1 : i ≠ .trapGetc) (h2 : i ≠ .trapIn) : awaitsKey i s = false := by
  simp [awaitsKey, h1, h2]

theorem awaitsKey_iff {i : Instr} {s : State} :
    awaitsKey i s = true ↔ (i = .trapGetc ∨ i = .trapIn) ∧ s.keyIn = [] := by
  simp [awaitsKey]

theorem step_of_instr {s : State} {i : Instr} (hr : s.run = .running) (hd : decode (fetch s).ir = .instr i)
    (hw : awaitsKey i (fetch s) = false) : step s = exec i (fetch s) := by
  unfold step
  rw [hr, hd]
  simp [hw]

theorem step_of_hold {s : State} {i : Instr} (hr : s.run = .running) (hd : decode (fetch s).ir = .instr i)
    (hw : awaitsKey i (fetch s) = true) : step s = .next s := by
  unfold step
  rw [hr, hd]
  simp [hw]

theorem step_of_undefinedTrap {s : State} {v : BitVec 8} (hr : s.run = .running)
    (hd : decode (fetch s).ir = .undefinedTrap v) : step s = execUndefinedTrap v (fetch s) := by
  unfold step
  rw [hr, hd]

/-- The ways a step answers a next state. -/
theorem step_cases {s t : State} (h : step s = .next t) : s.run = .running ∧
    ((∃ v, decode (fetch s).ir = .undefinedTrap v ∧ t = raiseFault .badTrapVector (fetch s)) ∨
     (∃ i, decode (fetch s).ir = .instr i ∧ awaitsKey i (fetch s) = true ∧ t = s) ∨
     ∃ i, decode (fetch s).ir = .instr i ∧ awaitsKey i (fetch s) = false ∧ exec i (fetch s) = .next t) := by
  have hr : s.run = .running := by
    unfold step at h
    cases hr : s.run <;> rw [hr] at h <;> first | rfl | cases h
  refine ⟨hr, ?_⟩
  cases hd : decode (fetch s).ir with
  | undefinedTrap v =>
    rw [step_of_undefinedTrap hr hd] at h
    cases h
    exact .inl ⟨v, rfl, rfl⟩
  | instr i =>
    cases hw : awaitsKey i (fetch s) with
    | true =>
      rw [step_of_hold hr hd hw] at h
      cases h
      exact .inr (.inl ⟨i, rfl, hw, rfl⟩)
    | false =>
      rw [step_of_instr hr hd hw] at h
      exact .inr (.inr ⟨i, rfl, hw, h⟩)

/-- PUTS completes with the state its loop leaves. -/
theorem execTrapPuts_next (s : State) :
    ∃ t, putsWalk (stringFuel s) (s.reg .r0) s = some t ∧ exec .trapPuts s = .next t := by
  obtain ⟨t, h⟩ := putsWalk_ends (s.reg .r0) s
  exact ⟨t, h, by
    have e : trapEntry s = s := rfl
    simp only [exec, execTrapPuts, e, h]⟩

/-- PUTSP completes with the state its loop leaves. -/
theorem execTrapPutsp_next (s : State) :
    ∃ t, putspWalk (stringFuel s) (s.reg .r0) s = some t ∧ exec .trapPutsp s = .next t := by
  obtain ⟨t, h⟩ := putspWalk_ends (s.reg .r0) s
  exact ⟨t, h, by
    have e : trapEntry s = s := rfl
    simp only [exec, execTrapPutsp, e, h]⟩

end Sys2Proof.Laws
end

