-- ==== Sys2Proof/Tests/Slice0.lean ====
section
/-! SUPPORT. The model's own tests. Expected results come from spec/95_test_vectors.md (the vector's id stands in the
comment), from the encodings of spec/30_encoding.md, or are computed by hand from the rule named. Then the witnesses: for
every obligation with hypotheses, concrete states and operands that meet them. -/

namespace Sys2Proof.Tests

open Sys2Proof Sys2Proof.Machine

/-! ## Helpers -/

/-- The next state of an outcome. -/
def nextOf : Result → Option State
  | .next s => some s
  | .fault _ => none
  | .refused _ => none

/-- The default start of a vector: a word at 0x3000 and the PC there. -/
def start (w : Word) : State := State.setCell { State.reset with pc := 0x3000 } 0x3000 w

/-- What a view shows after one step. -/
def after {α : Type} (s : State) (view : State → α) : Option α := (nextOf (step s)).map view

/-! ## Well-formedness: one ill-formed term for each check, and the two ends of each range -/

theorem smoke_imm5_refused : (Instr.addImm .r0 .r0 0x0010).wellFormed = false ∧
    (Instr.andImm .r0 .r0 0xFFEF).wellFormed = false := by decide
theorem smoke_offset6_refused : (Instr.ldr .r0 .r0 0x0020).wellFormed = false ∧
    (Instr.str .r0 .r0 0xFFDF).wellFormed = false := by decide
theorem smoke_offset9_refused : (Instr.br true true true 0x0100).wellFormed = false ∧
    (Instr.ld .r0 0xFEFF).wellFormed = false ∧ (Instr.ldi .r0 0x0100).wellFormed = false ∧
    (Instr.lea .r0 0xFEFF).wellFormed = false ∧ (Instr.st .r0 0x0100).wellFormed = false ∧
    (Instr.sti .r0 0xFEFF).wellFormed = false := by decide
theorem smoke_offset11_refused : (Instr.jsr 0x0400).wellFormed = false ∧
    (Instr.jsr 0xFBFF).wellFormed = false := by decide
theorem smoke_ends_accepted :
    (Instr.addImm .r0 .r0 0x000F).wellFormed = true ∧ (Instr.addImm .r0 .r0 0xFFF0).wellFormed = true ∧
    (Instr.ldr .r0 .r0 0x001F).wellFormed = true ∧ (Instr.ldr .r0 .r0 0xFFE0).wellFormed = true ∧
    (Instr.ld .r0 0x00FF).wellFormed = true ∧ (Instr.ld .r0 0xFF00).wellFormed = true ∧
    (Instr.jsr 0x03FF).wellFormed = true ∧ (Instr.jsr 0xFC00).wellFormed = true := by decide

/-! ## Decoding: for every constructor a word written out from its format (spec/30_encoding.md R52, R54) -/

theorem decode_addReg : decode 0b0001101010000111 = .instr (.addReg .r5 .r2 .r7) := by decide
theorem decode_addImm : decode 0b0001101010110000 = .instr (.addImm .r5 .r2 0xFFF0) := by decide
theorem decode_andReg : decode 0b0101011001000010 = .instr (.andReg .r3 .r1 .r2) := by decide
theorem decode_andImm : decode 0b0101001010101111 = .instr (.andImm .r1 .r2 0x000F) := by decide
theorem decode_notReg : decode 0b1001001000111111 = .instr (.notReg .r1 .r0) := by decide
theorem decode_br : decode 0b0000100100000000 = .instr (.br true false false 0xFF00) ∧
    decode 0b0000010011111111 = .instr (.br false true false 0x00FF) ∧
    decode 0b0000001000000001 = .instr (.br false false true 0x0001) := by decide
theorem decode_jmp : decode 0b1100000011000000 = .instr (.jmp .r3) := by decide
theorem decode_jsr : decode 0b0100110000000000 = .instr (.jsr 0xFC00) := by decide
theorem decode_jsrr : decode 0b0100000010000000 = .instr (.jsrr .r2) := by decide
theorem decode_ld : decode 0b0010001100000000 = .instr (.ld .r1 0xFF00) := by decide
theorem decode_ldi : decode 0b1010011000000100 = .instr (.ldi .r3 0x0004) := by decide
theorem decode_ldr : decode 0b0110001010100000 = .instr (.ldr .r1 .r2 0xFFE0) := by decide
theorem decode_lea : decode 0b1110000011111111 = .instr (.lea .r0 0x00FF) := by decide
theorem decode_st : decode 0b0011001111111111 = .instr (.st .r1 0xFFFF) := by decide
theorem decode_sti : decode 0b1011001000000010 = .instr (.sti .r1 0x0002) := by decide
theorem decode_str : decode 0b0111001010111111 = .instr (.str .r1 .r2 0xFFFF) := by decide
theorem decode_trapGetc : decode 0b1111000000100000 = .instr .trapGetc := by decide
theorem decode_trapOut : decode 0b1111000000100001 = .instr .trapOut := by decide
theorem decode_trapPuts : decode 0b1111000000100010 = .instr .trapPuts := by decide
theorem decode_trapIn : decode 0b1111000000100011 = .instr .trapIn := by decide
theorem decode_trapPutsp : decode 0b1111000000100100 = .instr .trapPutsp := by decide
theorem decode_trapHalt : decode 0b1111000100100101 = .instr .trapHalt := by decide
theorem decode_rti : decode 0b1000111111111111 = .instr .rti := by decide
theorem decode_res : decode 0b1101101010111100 = .instr .res := by decide
theorem decode_undefinedTrap : decode 0b1111000000100110 = .undefinedTrap 0x26 ∧
    decode 0b1111000000011111 = .undefinedTrap 0x1F := by decide

/-- The words of R60 and R61, written out, are what the encoder gives. -/
theorem encode_words :
    encode (.addReg .r2 .r0 .r1) = 0x1401 ∧ encode (.addImm .r1 .r1 0xFFF0) = 0x1270 ∧
    encode (.andReg .r3 .r1 .r2) = 0x5642 ∧ encode (.andImm .r0 .r0 0) = 0x5020 ∧
    encode (.notReg .r0 .r0) = 0x903F ∧ encode (.br false true false 0x00FF) = 0x04FF ∧
    encode (.jmp .r7) = 0xC1C0 ∧ encode (.jsr 0xFC00) = 0x4C00 ∧ encode (.jsrr .r2) = 0x4080 ∧
    encode (.ld .r1 0xFFFF) = 0x23FF ∧ encode (.ldi .r3 4) = 0xA604 ∧ encode (.ldr .r1 .r2 0xFFE0) = 0x62A0 ∧
    encode (.lea .r0 0xFF00) = 0xE100 ∧ encode (.st .r1 0x00FF) = 0x32FF ∧ encode (.sti .r1 2) = 0xB202 ∧
    encode (.str .r1 .r2 0xFFFF) = 0x72BF ∧ encode .trapPutsp = 0xF024 ∧ encode .rti = 0x8000 ∧
    encode .res = 0xD000 := by decide

/-- A table word of a defined row is read, a TRAP with an undefined vector is refused. -/
theorem decodeTableWord_words : decodeTableWord 16 0x1401 = some (.addReg .r2 .r0 .r1) ∧
    decodeTableWord 16 0xF026 = none := by decide

/-! ## One step of each instruction -/

/-- V-ADD-3. -/
theorem test_addReg_carry_lost :
    after (((start 0x1401).setReg .r0 0xFFFF).setReg .r1 0x0001) (fun t => (t.reg .r2, t.cond, t.pc)) =
      some (0x0000, .zero, 0x3001) := by decide
/-- V-ADD-7. -/
theorem test_addReg_all_three_the_same :
    after ((start 0x16C3).setReg .r3 0x8000) (fun t => (t.reg .r3, t.cond)) = some (0x0000, .zero) := by decide
/-- V-ADD-4. -/
theorem test_addImm_most_negative :
    after ((start 0x1270).setReg .r1 0x0010) (fun t => (t.reg .r1, t.cond)) = some (0x0000, .zero) := by decide
/-- V-ADD-5. -/
theorem test_addImm_largest :
    after ((start 0x126F).setReg .r1 0xFFF0) (fun t => (t.reg .r1, t.cond)) = some (0xFFFF, .neg) := by decide
/-- V-AND-1. -/
theorem test_andReg :
    after (((start 0x5642).setReg .r1 0xF0F0).setReg .r2 0xFF00) (fun t => (t.reg .r3, t.cond)) =
      some (0xF000, .neg) := by decide
/-- V-AND-5: a mask that is extended with zeros would give 0x0000. -/
theorem test_andImm_sign_extended :
    after ((start 0x52B0).setReg .r2 0xABCD) (fun t => (t.reg .r1, t.cond)) = some (0xABC0, .neg) := by decide
/-- V-NOT-3. -/
theorem test_notReg_positive :
    after ((start 0x923F).setReg .r0 0x8000) (fun t => (t.reg .r1, t.cond)) = some (0x7FFF, .pos) := by decide
/-- V-NOT-5. -/
theorem test_notReg_low_bits_ignored :
    after ((start 0x9040).setReg .r1 0x1234) (fun t => (t.reg .r0, t.cond)) = some (0xEDCB, .neg) := by decide
/-- V-BR-1: the rows BRp, BRz, BRn and BRnz of its table, each for N, Z, P. -/
theorem test_br_table :
    [(0x0205 : Word), 0x0405, 0x0805, 0x0C05].map (fun w => [Cond.neg, .zero, .pos].map (fun c =>
      after { start w with cond := c } State.pc)) =
    [[some 0x3001, some 0x3001, some 0x3006], [some 0x3001, some 0x3006, some 0x3001],
     [some 0x3006, some 0x3001, some 0x3001], [some 0x3006, some 0x3006, some 0x3001]] := by decide
/-- V-BR-7: a target below zero. -/
theorem test_br_wraps :
    after (State.setCell State.reset 0x0000 0x0FFE) State.pc = some 0xFFFF := by decide
/-- V-JMP-3. -/
theorem test_jmp_ignored_bits :
    after ((start 0xCEFF).setReg .r3 0x1234) (fun t => (t.pc, t.reg .r3)) = some (0x1234, 0x1234) := by decide
/-- V-JMP-2. -/
theorem test_ret : after ((start 0xC1C0).setReg .r7 0x3456) (fun t => (t.pc, t.reg .r7)) = some (0x3456, 0x3456) := by
  decide
/-- V-JSR-1. -/
theorem test_jsr : after (start 0x4C00) (fun t => (t.pc, t.reg .r7)) = some (0x2C01, 0x3001) := by decide
/-- V-JSR-4: the link wraps. -/
theorem test_jsr_link_wraps :
    after (State.setCell { State.reset with pc := 0xFFFF } 0xFFFF 0x4801) (fun t => (t.pc, t.reg .r7)) =
      some (0x0001, 0x0000) := by decide
/-- V-JSRR-1. -/
theorem test_jsrr : after ((start 0x4080).setReg .r2 0x4000) (fun t => (t.pc, t.reg .r7)) = some (0x4000, 0x3001) := by
  decide
/-- V-JSRR-2. -/
theorem test_jsrr_through_r7 :
    after ((start 0x41C0).setReg .r7 0x5000) (fun t => (t.pc, t.reg .r7)) = some (0x3001, 0x3001) := by decide
/-- V-LD-1: its own word. -/
theorem test_ld_own_word : after (start 0x23FF) (fun t => (t.reg .r1, t.cond)) = some (0x23FF, .pos) := by decide
/-- V-LD-2. -/
theorem test_ld_negative :
    after ((start 0x22FF).setCell 0x3100 0x8001) (fun t => (t.reg .r1, t.cond)) = some (0x8001, .neg) := by decide
/-- V-LD-4. -/
theorem test_ldi_double_indirection :
    after (((start 0xA604).setCell 0x3005 0x4000).setCell 0x4000 0x0007) (fun t => (t.reg .r3, t.cond)) =
      some (0x0007, .pos) := by decide
/-- V-MMIO-3: a ready poll keeps the low bits and consumes the character. -/
theorem test_ldi_ready_poll :
    after { ((start 0xA201).setCell 0x3002 0xFE00).setCell 0xFE00 0x0001 with keyIn := [0x62], keyPolls := [true] }
      (fun t => (t.reg .r1, t.cond, t.cell 0xFE00, t.cell 0xFE02, t.keyIn)) =
      some (0x8001, .neg, 0x8001, 0x0062, []) := by decide
/-- V-LD-6. -/
theorem test_ldr_wraps_below :
    after (((start 0x62A0).setReg .r2 0x0010).setCell 0xFFF0 0x7FFF) (fun t => (t.reg .r1, t.cond)) =
      some (0x7FFF, .pos) := by decide
/-- V-LD-8. -/
theorem test_ldr_destination_is_base :
    after (((start 0x6480).setReg .r2 0x4000).setCell 0x4000 0x4001) (fun t => (t.reg .r2, t.cond)) =
      some (0x4001, .pos) := by decide
/-- V-LEA-2. -/
theorem test_lea_zero :
    after (State.setCell { State.reset with pc := 0x00FF, cond := .neg } 0x00FF 0xE100)
      (fun t => (t.reg .r0, t.cond)) = some (0x0000, .zero) := by decide
/-- V-LEA-1. -/
theorem test_lea_lowest : after (start 0xE100) (fun t => (t.reg .r0, t.cond)) = some (0x2F01, .pos) := by decide
/-- V-ST-1: it overwrites its own word; COND stays. -/
theorem test_st_own_word :
    after { (start 0x33FF).setReg .r1 0xF025 with cond := .neg } (fun t => (t.cell 0x3000, t.cond, t.ir)) =
      some (0xF025, .neg, 0x33FF) := by decide
/-- V-ST-2. -/
theorem test_st_farthest :
    after ((start 0x32FF).setReg .r1 0xABCD) (fun t => (t.cell 0x3100, t.cell 0x3101)) =
      some (0xABCD, 0x0000) := by decide
/-- V-ST-3. -/
theorem test_sti :
    after (((start 0xB202).setReg .r1 0xABCD).setCell 0x3003 0x5000) (fun t => (t.cell 0x5000, t.cell 0x3003)) =
      some (0xABCD, 0x5000) := by decide
/-- V-MMIO-6: a store to KBSR polls nothing. -/
theorem test_sti_kbsr :
    after { ((start 0xB201).setReg .r1 0x1234).setCell 0x3002 0xFE00 with keyIn := [0x62], keyPolls := [true] }
      (fun t => (t.cell 0xFE00, t.cell 0xFE02, t.keyIn, t.keyPolls)) = some (0x1234, 0x0000, [0x62], [true]) := by
  decide
/-- V-ST-4. -/
theorem test_str_wraps : after ((start 0x72BF).setReg .r1 0xABCD) (fun t => t.cell 0xFFFF) = some 0xABCD := by decide
/-- V-ST-5. -/
theorem test_str_base_stores_itself :
    after ((start 0x7240).setReg .r1 0x4000) (fun t => (t.cell 0x4000, t.reg .r1)) = some (0x4000, 0x4000) := by decide
/-- V-TRAP-1. -/
theorem test_getc :
    after { (start 0xF020).setReg .r0 0xFFFF with cond := .neg, keyIn := [0x41] }
      (fun t => (t.reg .r0, t.cond, t.reg .r7, t.console, t.keyIn)) =
      some (0x0041, .neg, 0x0000, [], []) := by decide
/-- V-HOLD-1. -/
theorem test_getc_holds : nextOf (step (start 0xF020)) = some (start 0xF020) := by decide
/-- V-TRAP-2. -/
theorem test_out : after ((start 0xF021).setReg .r0 0x1241) State.console = some [0x41] := by decide
/-- V-TRAP-11. -/
theorem test_out_zero : after (start 0xF021) State.console = some [0x00] := by decide
/-- V-TRAP-5. -/
theorem test_puts_across_the_top :
    after ((((start 0xF022).setReg .r0 0xFFFF).setCell 0xFFFF 0x0141).setCell 0x0000 0x0042)
      (fun t => (t.console, t.reg .r0)) = some ([0x41, 0x42], 0xFFFF) := by decide +kernel
/-- V-TRAP-10. -/
theorem test_puts_low_byte_zero :
    after ((((start 0xF022).setReg .r0 0x4000).setCell 0x4000 0x0100).setCell 0x4001 0x0041) State.console =
      some [0x00, 0x41] := by decide +kernel
/-- V-TRAP-6. -/
theorem test_in :
    after { (start 0xF023).setReg .r0 0xFFFF with keyIn := [0x7A] } (fun t => (t.reg .r0, t.console, t.keyIn)) =
      some (0x007A, [0x7A], []) := by decide
/-- R143, for IN. -/
theorem test_in_holds : nextOf (step (start 0xF023)) = some (start 0xF023) := by decide
/-- V-TRAP-7. -/
theorem test_putsp :
    after ((((start 0xF024).setReg .r0 0x4000).setCell 0x4000 0x6548).setCell 0x4001 0x6C6C) State.console =
      some [0x48, 0x65, 0x6C, 0x6C] := by decide +kernel
/-- V-TRAP-9: it ends at the zero high byte. -/
theorem test_putsp_zero_high_byte :
    after (((((start 0xF024).setReg .r0 0x4000).setCell 0x4000 0x6548).setCell 0x4001 0x006C).setCell 0x4002 0x0021)
      State.console = some [0x48, 0x65, 0x6C] := by decide +kernel
/-- V-TRAP-12. -/
theorem test_halt :
    after { start 0xF025 with cond := .neg } (fun t => (t.run, t.pc, t.cond, t.console)) =
      some (.halted, 0x3001, .neg, [0x48, 0x41, 0x4C, 0x54, 0x0A]) := by decide
/-- V-RES-1. -/
theorem test_rti :
    after { start 0x8000 with cond := .pos } (fun t => (t.run, t.pc, t.cond)) =
      some (.faulted .reservedOpcode 0x8000 0x3000, 0x3001, .pos) := by decide
/-- V-MMIO-8: a fetch from KBSR_ADDR polls, and the ready word is RTI. -/
theorem test_rti_fetched_from_kbsr :
    after { State.reset with pc := 0xFE00, keyIn := [0x62], keyPolls := [true] }
      (fun t => (t.run, t.pc, t.cell 0xFE00, t.cell 0xFE02)) =
      some (.faulted .reservedOpcode 0x8000 0xFE00, 0xFE01, 0x8000, 0x0062) := by decide
/-- V-RES-4. -/
theorem test_res : after (start 0xDABC) (fun t => (t.run, t.pc)) =
    some (.faulted .reservedOpcode 0xDABC 0x3000, 0x3001) := by decide
/-- V-TRAP-14. -/
theorem test_undefined_vector : after (start 0xF026) (fun t => (t.run, t.pc, t.console)) =
    some (.faulted .badTrapVector 0xF026 0x3000, 0x3001, []) := by decide

/-! ## Images -/

/-- The state or the error of a load, as comparable data. -/
def bootView (r : Except BootError State) : Option BootError × Option (Word × Memory) :=
  match r with
  | .ok s => (none, some (s.pc, s.mem))
  | .error e => (some e, none)

/-- V-IMG-1, V-IMG-9. -/
theorem test_image : bootView (boot [[0x30, 0x00, 0x10, 0x01]]) = (none, some (0x3000, [(0x3000, 0x1001)])) ∧
    bootView (boot [[0x30, 0x00, 0xAB, 0xCD], [0x30, 0x00, 0x12, 0x34]]) =
      (none, some (0x3000, [(0x3000, 0x1234)])) := by decide
/-- V-IMG-6, V-IMG-7. -/
theorem test_image_top : bootView (boot [[0xFF, 0xFF, 0x12, 0x34]]) = (none, some (0xFFFF, [(0xFFFF, 0x1234)])) ∧
    bootView (boot [[0xFF, 0xFF, 0x12, 0x34, 0x56, 0x78]]) = (some .imageFormat, none) := by decide
/-- V-IMG-4, V-IMG-5. -/
theorem test_image_malformed : bootView (boot [[0x30]]) = (some .imageFormat, none) ∧
    bootView (boot [[0x30, 0x00, 0x10]]) = (some .imageFormat, none) := by decide

/-! ## Witnesses: the hypotheses of each obligation, clause by clause, met by concrete words, states and operands. The
words of a clause are the two ends of its set: every free bit 0, every free bit 1. -/

/-- Both words keep the fixed bits of a row. -/
def ends (mask match_ low high : Word) : Bool := low &&& mask == match_ && high &&& mask == match_

theorem witness_AddRegisterModeResult : ends 0xF020 0x1000 0x1000 0x1FDF = true := by decide
theorem witness_AddImmediateModeResult : ends 0xF020 0x1020 0x1020 0x1FFF = true ∧
    (-15 ≤ (((start 0).setReg .r2 0xFFF1).reg .r2).toInt ∧ (((start 0).setReg .r2 0xFFF1).reg .r2).toInt ≤ 16) ∧
    (-15 ≤ (((start 0).setReg .r2 0x0010).reg .r2).toInt ∧ (((start 0).setReg .r2 0x0010).reg .r2).toInt ≤ 16) := by
  decide
theorem witness_AndRegisterModeResult : ends 0xF020 0x5000 0x5000 0x5FDF = true := by decide
theorem witness_AndImmediateModeResult : ends 0xF020 0x5020 0x5020 0x5FFF = true := by decide
theorem witness_NotComplementResult : ends 0xF000 0x9000 0x9000 0x9FFF = true := by decide
theorem witness_BranchTakenByCurrentFlag : ends 0xF000 0x0000 0x0000 0x0FFF = true := by decide
theorem witness_JumpThroughRegisterAndReturn : ends 0xF000 0xC000 0xC000 0xCFFF = true ∧
    ends 0xF1C0 0xC1C0 0xC1C0 0xCFFF = true := by decide
theorem witness_JsrLinksAndJumpsRelative : ends 0xF800 0x4800 0x4800 0x4FFF = true := by decide
theorem witness_JsrrLinksBeforeReadingBase : ends 0xF800 0x4000 0x4000 0x47FF = true := by decide
theorem witness_LdLoadsPcRelativeWord : ends 0xF000 0x2000 0x2000 0x2FFF = true ∧
    (start 0).pc + 0xFF00 ≠ config.kbsrAddr ∧ (start 0).pc + 0x00FF ≠ config.kbsrAddr := by decide
theorem witness_LdiLoadsThroughPointer : ends 0xF000 0xA000 0xA000 0xAFFF = true ∧
    (start 0xABCD).pc + 0 ≠ config.kbsrAddr ∧ (0xABCD : Word) ≠ config.kbsrAddr ∧
    (start 0xABCD).cell ((start 0xABCD).pc + 0) = 0xABCD ∧ (start 0xABCD).cell 0xABCD = 0 := by decide
theorem witness_LdrLoadsBasePlusOffset : ends 0xF000 0x6000 0x6000 0x6FFF = true ∧
    (start 0).reg .r0 + 0xFFE0 ≠ config.kbsrAddr ∧ (start 0).reg .r0 + 0x001F ≠ config.kbsrAddr := by decide
theorem witness_LeaDeliversAddressAndFlags : ends 0xF000 0xE000 0xE000 0xEFFF = true := by decide
theorem witness_StStoresPcRelativeWord : ends 0xF000 0x3000 0x3000 0x3FFF = true ∧
    (0x3001 : Word) ≠ (start 0).pc + 0 ∧ (start 0).pc ≠ config.kbsrAddr ∧
    ∃ t, exec (.st .r1 0) (start 0) = .next t := ⟨by decide, by decide, by decide, _, rfl⟩
theorem witness_StiStoresThroughPointer : ends 0xF000 0xB000 0xB000 0xBFFF = true ∧
    (start 0x4000).pc + 0 ≠ config.kbsrAddr ∧ (0x4001 : Word) ≠ (memRead (start 0x4000) 0x3000).1 ∧
    (0x4001 : Word) ≠ (start 0x4000).cell ((start 0x4000).pc + 0) := by decide
theorem witness_StrStoresBasePlusOffset : ends 0xF000 0x7000 0x7000 0x7FFF = true ∧
    (0x0001 : Word) ≠ (start 0).reg .r0 + 0 := by decide
theorem witness_GetcConsumesKeyIntoR0 : ends 0xF0FF 0xF020 0xF020 0xFF20 = true ∧
    State.keyIn { start 0 with keyIn := [0x41] } = 0x41 :: [] := by decide
theorem witness_OutAppendsLowByteOfR0 : ends 0xF0FF 0xF021 0xF021 0xFF21 = true := by decide
theorem witness_PutsCompletesAsItsLoop : ends 0xF0FF 0xF022 0xF022 0xFF22 = true := by decide
/-- The source's own string (S5), at R0 = 0x4000. -/
theorem witness_PutsPrintsPlainString :
    let s := (((start 0).setReg .r0 0x4000).setCell 0x4000 0x0048).setCell 0x4001 0x0049
    let ws : List Word := [0x0048, 0x0049]
    (∀ k, k ≤ ws.length → s.reg .r0 + BitVec.ofNat 16 k ≠ config.kbsrAddr) ∧
    (∀ k (h : k < ws.length), s.cell (s.reg .r0 + BitVec.ofNat 16 k) = ws[k] ∧ ws[k] ≠ 0) ∧
    s.cell (s.reg .r0 + BitVec.ofNat 16 ws.length) = 0 := by decide
theorem witness_InEchoesKeyIntoR0 : ends 0xF0FF 0xF023 0xF023 0xFF23 = true ∧
    State.keyIn { start 0 with keyIn := [0x7A] } = 0x7A :: [] := by decide
theorem witness_PutspCompletesAsItsLoop : ends 0xF0FF 0xF024 0xF024 0xFF24 = true := by decide
theorem witness_HaltPrintsMessageAndStops : ends 0xF0FF 0xF025 0xF025 0xFF25 = true ∧
    (start 0xF025).run = .running ∧ (start 0xF025).pc ≠ config.kbsrAddr ∧
    decode ((start 0xF025).cell (start 0xF025).pc) = .instr .trapHalt := by decide
/-- The last vector below the six and the first above them, and the two ends of the byte. -/
theorem witness_UndefinedTrapVectorFaults : ends 0xF000 0xF000 0xF01F 0xF026 = true ∧
    ends 0xF000 0xF000 0xF000 0xFFFF = true ∧ (0xF01F : Word) &&& 0x00FF < 0x0020 ∧
    (0x0025 : Word) < 0xF026 &&& 0x00FF ∧ (0xF000 : Word) &&& 0x00FF < 0x0020 ∧
    (0x0025 : Word) < 0xFFFF &&& 0x00FF ∧
    (start 0xF026).run = .running ∧ decode (fetch (start 0xF026)).ir = .undefinedTrap 0x26 := by decide
theorem witness_ReservedOpcodesFault : ends 0xF000 0x8000 0x8000 0x8FFF = true ∧
    ends 0xF000 0xD000 0xD000 0xDFFF = true ∧
    (start 0x8FFF).run = .running ∧ decode (fetch (start 0x8FFF)).ir = .instr .rti ∧
    (start 0xDABC).run = .running ∧ decode (fetch (start 0xDABC)).ir = .instr .res := by decide
theorem witness_FaultEntryChangesOnlyRun : (start 0x8000).run = .running ∧
    ∃ t, step (start 0x8000) = .next t ∧ t.run = .faulted .reservedOpcode 0x8000 0x3000 :=
  ⟨rfl, _, rfl, rfl⟩
/-- For a plain instruction, for a GETC that finds a character, for an undefined vector. -/
theorem witness_StepRunsDecodedInstruction :
    ((start 0x1401).run = .running ∧
      decode (memRead (start 0x1401) (start 0x1401).pc).1 = .instr (.addReg .r2 .r0 .r1)) ∧
    (let s := State.supplyKeys (start 0xF020) [0x41]
     s.run = .running ∧ decode (memRead s s.pc).1 = .instr .trapGetc ∧ (memRead s s.pc).2.keyIn ≠ []) ∧
    ((start 0xF026).run = .running ∧
      decode (memRead (start 0xF026) (start 0xF026).pc).1 = .undefinedTrap 0x26) := by decide
theorem witness_PlacedWordRunsNext : decode 0x1401 = .instr (.addReg .r2 .r0 .r1) ∧
    ¬ ((Instr.addReg .r2 .r0 .r1 = .trapGetc ∨ Instr.addReg .r2 .r0 .r1 = .trapIn) ∧ State.reset.keyIn = []) := by
  decide
theorem witness_HoldLastsUntilKeyArrives :
    ((start 0xF020).run = .running ∧ (start 0xF020).pc ≠ config.kbsrAddr ∧ (start 0xF020).keyIn = [] ∧
      (fetch (start 0xF020)).keyIn = [] ∧ decode (fetch (start 0xF020)).ir = .instr .trapGetc ∧
      decode ((start 0xF020).cell (start 0xF020).pc) = .instr .trapGetc) ∧
    ((start 0xF023).run = .running ∧ (start 0xF023).pc ≠ config.kbsrAddr ∧ (start 0xF023).keyIn = [] ∧
      (fetch (start 0xF023)).keyIn = [] ∧ decode (fetch (start 0xF023)).ir = .instr .trapIn ∧
      decode ((start 0xF023).cell (start 0xF023).pc) = .instr .trapIn) := by decide
/-- A step that ends Running, one that ends Halted, one that ends Faulted. -/
theorem witness_OnlyHaltHaltsAndOnlyDecodeFaults :
    (∃ t, step (start 0x1401) = .next t ∧ t.run = .running) ∧
    (∃ t, step (start 0xF025) = .next t ∧ t.run = .halted) ∧
    ∃ t, step (start 0xF026) = .next t ∧ t.EndsFatally :=
  ⟨⟨_, rfl, rfl⟩, ⟨_, rfl, rfl⟩, ⟨_, rfl, _, _, _, rfl⟩⟩
theorem witness_RunningCoreAlwaysSteps : (start 0x1401).run = .running ∧ State.reset.run = .running := by decide
/-- A plain address on each side of KBSR_ADDR, a poll without a key, a poll that finds one. -/
theorem witness_MemReadPollsOnlyKbsr : (0xFDFF : Word) ≠ config.kbsrAddr ∧ (0xFE01 : Word) ≠ config.kbsrAddr ∧
    kbdAvail (start 0) = false ∧
    (let s : State := { start 0 with keyIn := [0x62], keyPolls := [true] }
     s.keyIn = 0x62 :: [] ∧ kbdAvail s = true) := by decide
/-- ST to the next word, STI through a pointer to the PC, STR to the PC. -/
theorem witness_StoreSeenByNextFetch : (start 0).pc ≠ config.kbsrAddr ∧ (start 0).pc + 0 = (start 0).pc ∧
    (memRead ((start 0).setCell 0x3005 0x3000) ((start 0).pc + 5)).1 = (start 0).pc ∧
    ((start 0).setReg .r2 0x3001).reg .r2 + 0xFFFF = (start 0).pc ∧
    (∃ t, exec (.st .r1 0) (start 0) = .next t) ∧
    (∃ t, exec (.sti .r1 5) ((start 0).setCell 0x3005 0x3000) = .next t) ∧
    ∃ t, exec (.str .r1 .r2 0xFFFF) ((start 0).setReg .r2 0x3001) = .next t :=
  ⟨by decide, by decide, by decide, by decide, ⟨_, rfl⟩, ⟨_, rfl⟩, _, rfl⟩
theorem witness_SignExtensionFormula : 5 ∈ [5, 6, 9, 11] ∧ 6 ∈ [5, 6, 9, 11] ∧ 9 ∈ [5, 6, 9, 11] ∧
    11 ∈ [5, 6, 9, 11] := by decide
theorem witness_CondFollowsOnlyTheSeven :
    (flagSource (.str .r1 .r2 0) = none ∧ ∃ t, exec (.str .r1 .r2 0) (start 0) = .next t) ∧
    (flagSource (.lea .r1 0) = some .r1 ∧ ∃ t, exec (.lea .r1 0) (start 0) = .next t) :=
  ⟨⟨rfl, _, rfl⟩, rfl, _, rfl⟩
theorem witness_OnlyNamedRegistersChange : ∃ t, exec (.jsr 0) (start 0) = .next t ∧ Reg.r0 ∉ writtenRegs (.jsr 0) :=
  ⟨_, rfl, by decide⟩
/-- A store, a poll, and a load that reads nothing at KBSR_ADDR. -/
theorem witness_OnlyStoredWordAndPollsChangeMemory :
    (∃ t, exec (.st .r1 0) (start 0) = .next t) ∧
    (∃ t, exec (.ldr .r1 .r2 0) ((start 0).setReg .r2 0xFE00) = .next t) ∧
    (∃ t, exec (.ldi .r1 5) (start 0) = .next t) ∧ Instr.ldi .r1 5 ≠ .trapPuts ∧ Instr.ldi .r1 5 ≠ .trapPutsp ∧
    config.kbsrAddr ∉ readsFrom (.ldi .r1 5) (start 0) :=
  ⟨⟨_, rfl⟩, ⟨_, rfl⟩, ⟨_, rfl⟩, by decide, by decide, by decide⟩
theorem witness_OnlyControlTransferWritesPc : (∃ t, exec .trapOut (start 0) = .next t) ∧
    awaitsKey .trapOut (start 0) = false ∧ (∀ n z p off, Instr.trapOut ≠ .br n z p off) ∧
    (∀ base, Instr.trapOut ≠ .jmp base) ∧ (∀ off, Instr.trapOut ≠ .jsr off) ∧ ∀ base, Instr.trapOut ≠ .jsrr base :=
  ⟨⟨_, rfl⟩, rfl, by simp, by simp, by simp, by simp⟩
/-- An instruction that meets the hypotheses of every clause. -/
theorem witness_EnvironmentAndRunFrame : (∃ t, exec (.ldi .r1 5) (start 0) = .next t) ∧
    Instr.ldi .r1 5 ∉ [Instr.trapGetc, .trapOut, .trapPuts, .trapIn, .trapPutsp, .trapHalt, .rti, .res] ∧
    config.kbsrAddr ∉ readsFrom (.ldi .r1 5) (start 0) := ⟨⟨_, rfl⟩, by decide, by decide⟩
/-- The two ends of each operand's range are well formed. -/
theorem witness_DecodeEncodeRoundTrip : ∀ i ∈ [Instr.addImm .r0 .r7 0xFFF0, .andImm .r7 .r0 0x000F,
    .ldr .r1 .r2 0xFFE0, .str .r1 .r2 0x001F, .br true false true 0xFF00, .sti .r3 0x00FF, .jsr 0xFC00, .jsr 0x03FF],
    i.wellFormed = true := by decide
theorem witness_DecodedInstructionsWellFormed : decode 0x10FF = .instr (.addImm .r0 .r3 0xFFFF) ∧
    decode 0x4C00 = .instr (.jsr 0xFC00) := by decide
/-- One pair of words for each of the eight cases, all the ignored bits different. -/
theorem witness_UnreadBitsAreIgnored :
    (ends 0xF020 0x1000 0x1001 0x1019 ∧ (0x1001 : Word) &&& 0xFFE7 = 0x1019 &&& 0xFFE7) ∧
    (ends 0xF020 0x5000 0x5001 0x5019 ∧ (0x5001 : Word) &&& 0xFFE7 = 0x5019 &&& 0xFFE7) ∧
    (ends 0xF000 0x9000 0x9040 0x907F ∧ (0x9040 : Word) &&& 0xFFC0 = 0x907F &&& 0xFFC0) ∧
    (ends 0xF000 0xC000 0xC0C0 0xCEFF ∧ (0xC0C0 : Word) &&& 0xF1C0 = 0xCEFF &&& 0xF1C0) ∧
    (ends 0xF800 0x4000 0x4000 0x463F ∧ (0x4000 : Word) &&& 0xF9C0 = 0x463F &&& 0xF9C0) ∧
    (ends 0xF000 0xF000 0xF025 0xFF25 ∧ (0xF025 : Word) &&& 0xF0FF = 0xFF25 &&& 0xF0FF) ∧
    (ends 0xF000 0x8000 0x8000 0x8FFF ∧ (0x8000 : Word) &&& 0xF000 = 0x8FFF &&& 0xF000) ∧
    (ends 0xF000 0xD000 0xD000 0xDFFF ∧ (0xD000 : Word) &&& 0xF000 = 0xDFFF &&& 0xF000) := by decide
/-- The six vectors and the four boundary values of the undefined ones. -/
theorem witness_SixTrapVectorsDefined :
    [(0xF020 : Word), 0xF121, 0xF222, 0xF323, 0xF424, 0xFF25, 0xF01F, 0xF026, 0xF000, 0xFFFF].all
      (fun w => w.extractLsb' 12 4 == config.opTRAP) = true ∧
    [(0xF020 : Word), 0xF121, 0xF222, 0xF323, 0xF424, 0xFF25, 0xF01F, 0xF026, 0xF000, 0xFFFF].map
      (fun w => w.toNat % 256) = [0x20, 0x21, 0x22, 0x23, 0x24, 0x25, 0x1F, 0x26, 0x00, 0xFF] ∧
    (start 0xF01F).run = .running ∧ (fetch (start 0xF01F)).ir = 0xF01F := by decide
/-- The first and the last word with no condition, and BRnzp with offset 0. -/
theorem witness_BranchNoOps : (start 0).run = .running ∧ (start 0).pc ≠ config.kbsrAddr ∧
    (start 0x0000).cell (start 0x0000).pc &&& 0xFE00 = 0x0000 ∧
    (start 0x01FF).cell (start 0x01FF).pc &&& 0xFE00 = 0x0000 ∧
    (start 0x0E00).cell (start 0x0E00).pc &&& 0xF1FF = 0x0000 := by decide
/-- One word, no word, a word at the very top; an odd length, one word too far; no byte and one byte. -/
theorem witness_LoadImagePlacesWords :
    ([0x10, 0x01] : List Byte).length % 2 = 0 ∧ ((0x30 : Byte) ++ (0x00 : Byte)).toNat + 2 / 2 ≤ 65536 ∧
    ([] : List Byte).length % 2 = 0 ∧ ((0xFF : Byte) ++ (0xFF : Byte)).toNat + 0 / 2 ≤ 65536 ∧
    ((0xFF : Byte) ++ (0xFF : Byte)).toNat + 2 / 2 ≤ 65536 ∧
    2 * 0 + 1 < ([0x10, 0x01] : List Byte).length ∧ (0x2FFF < ((0x30 : Byte) ++ (0x00 : Byte)).toNat) ∧
    ([0x10] : List Byte).length % 2 = 1 ∧ 65536 < ((0xFF : Byte) ++ (0xFF : Byte)).toNat + 4 / 2 ∧
    ([] : List Byte).length < 2 ∧ ([0x30] : List Byte).length < 2 := by decide
theorem witness_BootStartsAtLastOrigin :
    ∃ t, boot ([[0x30, 0x00, 0xAB, 0xCD]] ++ [[0x30, 0x00, 0x12, 0x34]]) = .ok t := ⟨_, rfl⟩
/-- From a state that meets the invariant: a plain step, a HALT, a fault. -/
theorem witness_StepKeepsInvariant : Inv (start 0x1401) ∧ Inv (start 0xF025) ∧ Inv (start 0xD000) ∧
    (∃ t, step (start 0x1401) = .next t) ∧ (∃ t, step (start 0xF025) = .next t) ∧
    ∃ t, step (start 0xD000) = .next t :=
  ⟨⟨by decide, trivial⟩, ⟨by decide, trivial⟩, ⟨by decide, trivial⟩, ⟨_, rfl⟩, ⟨_, rfl⟩, _, rfl⟩
/-- A booted program that halts, and one that faults. -/
theorem witness_BootedRunsKeepInvariant :
    (∃ s t, boot [[0x30, 0x00, 0xF0, 0x25]] = .ok s ∧ Reaches s t ∧ t.EndsWell) ∧
    ∃ s t, boot [[0x30, 0x00, 0xF0, 0x26]] = .ok s ∧ Reaches s t ∧ t.EndsFatally :=
  ⟨⟨_, _, rfl, .step (.refl _) rfl, rfl⟩, _, _, rfl, .step (.refl _) rfl, _, _, _, rfl⟩

end Sys2Proof.Tests
end

section
/-! The flags by the sign of the value, and `setcc` (spec/10_state.md R15). -/

namespace Sys2Proof.Proofs

open Sys2Proof Sys2Proof.Machine Sys2Proof.Laws

/-- Bit 15 is the sign of the two's complement value. -/
theorem bit15_iff_toInt_neg (v : Word) : v.getLsbD 15 = true ↔ v.toInt < 0 := by
  have hmsb : v.msb = v.getLsbD 15 := BitVec.msb_eq_getLsbD_last v
  rw [← hmsb, BitVec.msb_eq_toInt, decide_eq_true_iff]

theorem eq_zero_iff_toInt_eq_zero (v : Word) : v = 0 ↔ v.toInt = 0 :=
  BitVec.toInt_inj.symm

/-- `flagOf` decides by the signed value alone; the three flags below are read off this form. -/
theorem flagOf_eq_ite_toInt (v : Word) :
    flagOf v = if v.toInt = 0 then .zero else if v.toInt < 0 then .neg else .pos := by
  simp only [flagOf, bit15_iff_toInt_neg, eq_zero_iff_toInt_eq_zero]

theorem flagOf_eq_zero_iff (v : Word) : flagOf v = .zero ↔ v = 0 := by
  rw [flagOf_eq_ite_toInt, eq_zero_iff_toInt_eq_zero]
  split_ifs with hz <;> simp [hz]

theorem flagOf_eq_neg_iff (v : Word) : flagOf v = .neg ↔ v.toInt < 0 := by
  rw [flagOf_eq_ite_toInt]
  split_ifs with hz hn
  · simp [hz]
  · simp [hn]
  · simp [hn]

theorem flagOf_eq_pos_iff (v : Word) : flagOf v = .pos ↔ 0 < v.toInt := by
  rw [flagOf_eq_ite_toInt]
  split_ifs with hz hn
  · simp [hz]
  · simp [hn.le]
  · simp only [true_iff]
    omega

/-- Settles O36: `setcc` is an update of COND by definition, and COND becomes the flag of the register's value. -/
theorem setccDescribesRegister : Obligations.SetccDescribesRegister := by
  intro s r
  rw [setcc_cond]
  exact ⟨rfl, flagOf_eq_zero_iff _, flagOf_eq_neg_iff _, flagOf_eq_pos_iff _⟩

end Sys2Proof.Proofs
end

section
/-! The write primitive (spec/20_memory.md R32). -/

namespace Sys2Proof.Proofs

open Sys2Proof Sys2Proof.Machine Sys2Proof.Laws

/-- What each address holds after `MemWrite`: the mapped addresses are stored to like any other. -/
theorem cell_memWrite (s : State) (a v b : Word) :
    (memWrite s a v).cell b = if b = a then v else s.cell b := by
  unfold memWrite
  split_ifs with hb
  · rw [hb, cell_setCell_self]
  · exact cell_setCell_ne s v hb

/-- Settles O33: `memWrite` updates the memory field only, by definition, and there the one word at `a`. -/
theorem memWriteStoresUnconditionally : Obligations.MemWriteStoresUnconditionally := by
  intro s a v
  exact ⟨rfl, cell_memWrite s a v⟩

end Sys2Proof.Proofs
end

section
/-! Words known by some of their bits (spec/30_encoding.md R51, R54, R55): what a row's fixed bits say of the opcode
field and the mode flag, and the form each opcode of spec/40_operate.md decodes to. -/

namespace Sys2Proof.Proofs

open Sys2Proof Sys2Proof.Machine Sys2Proof.Laws

/-- A mask that keeps bits 15:12 keeps the opcode. -/
theorem opcodeField_and (w : Word) {m : Word} (hm : opcodeField m = 0xF) :
    opcodeField (w &&& m) = opcodeField w := by
  unfold opcodeField at hm ⊢
  rw [BitVec.extractLsb'_and, hm]
  exact BitVec.and_allOnes

/-- A mask that keeps bit 5 keeps the mode flag of ADD and AND. -/
theorem immFlag_and (w : Word) {m : Word} (hm : immFlag m = true) : immFlag (w &&& m) = immFlag w := by
  unfold immFlag at hm ⊢
  rw [BitVec.getLsbD_and, hm, Bool.and_true]

theorem opcodeField_of_and_eq {w m v : Word} (h : w &&& m = v) (hm : opcodeField m = 0xF) :
    opcodeField w = opcodeField v := by
  rw [← h, opcodeField_and w hm]

theorem immFlag_of_and_eq {w m v : Word} (h : w &&& m = v) (hm : immFlag m = true) : immFlag w = immFlag v := by
  rw [← h, immFlag_and w hm]

theorem decode_of_opADD {w : Word} (h : opcodeField w = config.opADD) :
    decode w = if immFlag w then .instr (.addImm (fieldDR w) (fieldSR1 w) (fieldImm5 w))
      else .instr (.addReg (fieldDR w) (fieldSR1 w) (fieldSR2 w)) := by
  have hop : opcodeOf (opcodeField w) = .add := by rw [h]; decide
  rw [decode, hop]

theorem decode_of_opAND {w : Word} (h : opcodeField w = config.opAND) :
    decode w = if immFlag w then .instr (.andImm (fieldDR w) (fieldSR1 w) (fieldImm5 w))
      else .instr (.andReg (fieldDR w) (fieldSR1 w) (fieldSR2 w)) := by
  have hop : opcodeOf (opcodeField w) = .and := by rw [h]; decide
  rw [decode, hop]

theorem decode_of_opNOT {w : Word} (h : opcodeField w = config.opNOT) :
    decode w = .instr (.notReg (fieldDR w) (fieldSR1 w)) := by
  have hop : opcodeOf (opcodeField w) = .not := by rw [h]; decide
  rw [decode, hop]

end Sys2Proof.Proofs
end

section
/-! ADD, AND, NOT (spec/40_operate.md R70 to R74). -/

namespace Sys2Proof.Proofs

open Sys2Proof Sys2Proof.Machine Sys2Proof.Laws

/-- The claims' reading of R15 and the model's are one function: bit 15 is the top bit. -/
theorem flagOf_eq_signFlag (v : Word) : flagOf v = signFlag v := by
  have hmsb : v.msb = v.getLsbD 15 := BitVec.msb_eq_getLsbD_last v
  rw [flagOf, signFlag, hmsb]

/-- The whole state the end of a flag-setting instruction leaves (R16). -/
theorem writeResult_eq (s : State) (dr : Reg) (v : Word) :
    writeResult s dr v = { s with regs := s.regs.set dr v, cond := signFlag v } := by
  rw [← flagOf_eq_signFlag, ← writeResult_cond s dr v]
  rfl

theorem exec_addReg (dr sr1 sr2 : Reg) (s : State) :
    exec (.addReg dr sr1 sr2) s = .next (writeResult s dr (s.reg sr1 + s.reg sr2)) := rfl

theorem exec_addImm (dr sr1 : Reg) (imm : Word) (s : State) :
    exec (.addImm dr sr1 imm) s = .next (writeResult s dr (s.reg sr1 + imm)) := rfl

theorem exec_andReg (dr sr1 sr2 : Reg) (s : State) :
    exec (.andReg dr sr1 sr2) s = .next (writeResult s dr (s.reg sr1 &&& s.reg sr2)) := rfl

theorem exec_andImm (dr sr1 : Reg) (imm : Word) (s : State) :
    exec (.andImm dr sr1 imm) s = .next (writeResult s dr (s.reg sr1 &&& imm)) := rfl

theorem exec_notReg (dr sr : Reg) (s : State) :
    exec (.notReg dr sr) s = .next (writeResult s dr (~~~ s.reg sr)) := rfl

/-- Settles O1: the fixed bits give opcode and mode, and the result is one register write with its flag. -/
theorem addRegisterModeResult : Obligations.AddRegisterModeResult := by
  constructor
  · intro w hw
    have hop : opcodeField w = config.opADD := opcodeField_of_and_eq hw (by decide)
    have hmode : immFlag w = false := immFlag_of_and_eq hw (by decide)
    rw [decode_of_opADD hop, hmode, if_neg Bool.false_ne_true]
  · intro dr sr1 sr2 s
    rw [exec_addReg, writeResult_eq]

/-- The negation of -15 .. 16 is the range -16 .. 15 of imm5 (R71). -/
theorem fitsImm5_neg {v : Word} (hlo : -15 ≤ v.toInt) (hhi : v.toInt ≤ 16) : fitsImm5 (-v) = true := by
  have hneg : (-v).toInt = -v.toInt := by
    rw [BitVec.toInt_neg]
    exact Int.bmod_eq_of_le (by omega) (by omega)
  rw [fitsImm5, signedWithin, hneg, Bool.and_eq_true, decide_eq_true_iff, decide_eq_true_iff]
  omega

/-- Adding a register and then its negation gives the first summand back, whatever registers coincide (R71). -/
theorem reg_writeResult_add_neg (s : State) (dr : Reg) (a b : Word) :
    (writeResult (writeResult s dr (a + b)) dr ((writeResult s dr (a + b)).reg dr + -b)).reg dr = a := by
  rw [reg_writeResult_self, reg_writeResult_self, add_neg_cancel_right]

/-- Settles O2: as for register mode; the second ADD of the round trip is encodable and undoes the first. -/
theorem addImmediateModeResult : Obligations.AddImmediateModeResult := by
  refine ⟨?decodes, ?result, ?roundTrip⟩
  case decodes =>
    intro w hw
    have hop : opcodeField w = config.opADD := opcodeField_of_and_eq hw (by decide)
    have hmode : immFlag w = true := immFlag_of_and_eq hw (by decide)
    rw [decode_of_opADD hop, if_pos hmode, fieldImm5]
  case result =>
    intro dr sr1 imm s
    rw [exec_addImm, writeResult_eq]
  case roundTrip =>
    intro dr ra rb s hlo hhi
    exact ⟨fitsImm5_neg hlo hhi, _, _, exec_addReg dr ra rb s, exec_addImm dr dr _ _,
      reg_writeResult_add_neg s dr (s.reg ra) (s.reg rb)⟩

/-- Settles O3. -/
theorem andRegisterModeResult : Obligations.AndRegisterModeResult := by
  constructor
  · intro w hw
    have hop : opcodeField w = config.opAND := opcodeField_of_and_eq hw (by decide)
    have hmode : immFlag w = false := immFlag_of_and_eq hw (by decide)
    rw [decode_of_opAND hop, hmode, if_neg Bool.false_ne_true]
  · intro dr sr1 sr2 s
    rw [exec_andReg, writeResult_eq]

/-- Settles O4: the mask is the decoder's sign-extended bits 4:0. -/
theorem andImmediateModeResult : Obligations.AndImmediateModeResult := by
  constructor
  · intro w hw
    have hop : opcodeField w = config.opAND := opcodeField_of_and_eq hw (by decide)
    have hmode : immFlag w = true := immFlag_of_and_eq hw (by decide)
    rw [decode_of_opAND hop, if_pos hmode, fieldImm5]
  · intro dr sr1 imm s
    rw [exec_andImm, writeResult_eq]

/-- Settles O5: 0xFFFF is the word of all ones, and subtracting from it complements every bit. -/
theorem notComplementResult : Obligations.NotComplementResult := by
  constructor
  · intro w hw
    exact decode_of_opNOT (opcodeField_of_and_eq hw (by decide))
  · intro dr sr s
    have hcompl : 0xFFFF - s.reg sr = ~~~ s.reg sr := BitVec.allOnes_sub_eq_not _
    rw [exec_notReg, writeResult_eq, hcompl]

end Sys2Proof.Proofs
end

section
/-! JMP and RET (spec/41_control.md R81, R82). -/

namespace Sys2Proof.Proofs

open Sys2Proof Sys2Proof.Machine Sys2Proof.Laws

/-- A mask that keeps bits 8:6 keeps the register they name. -/
theorem fieldSR1_and (w : Word) {m : Word} (hm : m.extractLsb' 6 3 = 7) : fieldSR1 (w &&& m) = fieldSR1 w := by
  have hbits : (w &&& m).extractLsb' 6 3 = w.extractLsb' 6 3 := by
    rw [BitVec.extractLsb'_and, hm]
    exact BitVec.and_allOnes
  rw [fieldSR1, fieldSR1, hbits]

theorem fieldSR1_of_and_eq {w m v : Word} (h : w &&& m = v) (hm : m.extractLsb' 6 3 = 7) :
    fieldSR1 w = fieldSR1 v := by
  rw [← h, fieldSR1_and w hm]

theorem decode_of_opJMP {w : Word} (h : opcodeField w = config.opJMP) :
    decode w = .instr (.jmp (fieldSR1 w)) := by
  have hop : opcodeOf (opcodeField w) = .jmp := by rw [h]; decide
  rw [decode, hop]

theorem exec_jmp (base : Reg) (s : State) : exec (.jmp base) s = .next (s.setPc (s.reg base)) := rfl

/-- Settles O7: RET's fixed bits give opcode JMP and register R7, and JMP writes the PC alone, so RET keeps R7. -/
theorem jumpThroughRegisterAndReturn : Obligations.JumpThroughRegisterAndReturn := by
  refine ⟨?jump, ?ret, ?result⟩
  case jump =>
    intro w hw
    exact decode_of_opJMP (opcodeField_of_and_eq hw (by decide))
  case ret =>
    intro w hw
    have hop : opcodeField w = config.opJMP := opcodeField_of_and_eq hw (by decide)
    have hbase : fieldSR1 w = .r7 := fieldSR1_of_and_eq hw (by decide)
    rw [decode_of_opJMP hop, hbase]
  case result =>
    intro base s
    rw [exec_jmp, State.setPc]

end Sys2Proof.Proofs
end

section
/-! LD, LDI, LDR, LEA (spec/42_load.md R90 to R93). -/

namespace Sys2Proof.Proofs

open Sys2Proof Sys2Proof.Machine Sys2Proof.Laws

theorem decode_of_opLD {w : Word} (h : opcodeField w = config.opLD) :
    decode w = .instr (.ld (fieldDR w) (fieldOffset9 w)) := by
  have hop : opcodeOf (opcodeField w) = .ld := by rw [h]; decide
  rw [decode, hop]

theorem decode_of_opLDI {w : Word} (h : opcodeField w = config.opLDI) :
    decode w = .instr (.ldi (fieldDR w) (fieldOffset9 w)) := by
  have hop : opcodeOf (opcodeField w) = .ldi := by rw [h]; decide
  rw [decode, hop]

theorem decode_of_opLDR {w : Word} (h : opcodeField w = config.opLDR) :
    decode w = .instr (.ldr (fieldDR w) (fieldSR1 w) (fieldOffset6 w)) := by
  have hop : opcodeOf (opcodeField w) = .ldr := by rw [h]; decide
  rw [decode, hop]

theorem decode_of_opLEA {w : Word} (h : opcodeField w = config.opLEA) :
    decode w = .instr (.lea (fieldDR w) (fieldOffset9 w)) := by
  have hop : opcodeOf (opcodeField w) = .lea := by rw [h]; decide
  rw [decode, hop]

theorem exec_ld (dr : Reg) (off : Word) (s : State) :
    exec (.ld dr off) s = .next (loadFrom s dr (s.pc + off)) := rfl

theorem exec_ldi (dr : Reg) (off : Word) (s : State) :
    exec (.ldi dr off) s = .next (loadFrom (memRead s (s.pc + off)).2 dr (memRead s (s.pc + off)).1) := rfl

theorem exec_ldr (dr base : Reg) (off : Word) (s : State) :
    exec (.ldr dr base off) s = .next (loadFrom s dr (s.reg base + off)) := rfl

theorem exec_lea (dr : Reg) (off : Word) (s : State) :
    exec (.lea dr off) s = .next (writeResult s dr (s.pc + off)) := rfl

/-- The whole state a load leaves: the poll of the read, if there was one, then the word in DR and its flag. -/
theorem loadFrom_eq (s : State) (dr : Reg) (ea : Word) :
    loadFrom s dr ea = { (memRead s ea).2 with
      regs := s.regs.set dr (memRead s ea).1
      cond := signFlag (memRead s ea).1 } := by
  rw [loadFrom, writeResult_eq, memRead_regs]

/-- A load from any address but KBSR_ADDR changes DR and COND only (R31). -/
theorem loadFrom_plain {s : State} {ea : Word} (dr : Reg) (h : ea ≠ config.kbsrAddr) :
    loadFrom s dr ea = { s with regs := s.regs.set dr (s.cell ea), cond := signFlag (s.cell ea) } := by
  rw [loadFrom_eq, memRead_plain h]

/-- Settles O10: one load from the PC-relative address. -/
theorem ldLoadsPcRelativeWord : Obligations.LdLoadsPcRelativeWord := by
  refine ⟨?decodes, ?result, ?plain⟩
  case decodes =>
    intro w hw
    exact decode_of_opLD (opcodeField_of_and_eq hw (by decide))
  case result =>
    intro dr off s
    rw [exec_ld, loadFrom_eq]
  case plain =>
    intro dr off s hea
    rw [exec_ld, loadFrom_plain dr hea]

/-- Settles O11: a load from the pointer word, in the state the pointer's own read leaves; no read, polling or not,
changes the registers. -/
theorem ldiLoadsThroughPointer : Obligations.LdiLoadsThroughPointer := by
  refine ⟨?decodes, ?result, ?plain⟩
  case decodes =>
    intro w hw
    exact decode_of_opLDI (opcodeField_of_and_eq hw (by decide))
  case result =>
    intro dr off s
    rw [exec_ldi, loadFrom_eq, memRead_regs]
  case plain =>
    intro dr off b v s hptr hb hcell hv
    rw [exec_ldi, memRead_plain hptr, hcell, loadFrom_plain dr hb, hv]

/-- Settles O12: one load from base plus offset; the address is formed before DR is written, so DR may be BaseR. -/
theorem ldrLoadsBasePlusOffset : Obligations.LdrLoadsBasePlusOffset := by
  refine ⟨?decodes, ?result, ?plain⟩
  case decodes =>
    intro w hw
    exact decode_of_opLDR (opcodeField_of_and_eq hw (by decide))
  case result =>
    intro dr base off s
    rw [exec_ldr, loadFrom_eq]
  case plain =>
    intro dr base off s hea
    rw [exec_ldr, loadFrom_plain dr hea]

/-- Settles O13: the address itself is the result, written as ADD writes its sum. -/
theorem leaDeliversAddressAndFlags : Obligations.LeaDeliversAddressAndFlags := by
  constructor
  · intro w hw
    exact decode_of_opLEA (opcodeField_of_and_eq hw (by decide))
  · intro dr off s
    rw [exec_lea, writeResult_eq]

end Sys2Proof.Proofs
end

section
/-! ST, STI, STR (spec/43_store.md R100 to R102). -/

namespace Sys2Proof.Proofs

open Sys2Proof Sys2Proof.Machine Sys2Proof.Laws

theorem decode_of_opST {w : Word} (h : opcodeField w = config.opST) :
    decode w = .instr (.st (fieldDR w) (fieldOffset9 w)) := by
  have hop : opcodeOf (opcodeField w) = .st := by rw [h]; decide
  rw [decode, hop]

theorem decode_of_opSTI {w : Word} (h : opcodeField w = config.opSTI) :
    decode w = .instr (.sti (fieldDR w) (fieldOffset9 w)) := by
  have hop : opcodeOf (opcodeField w) = .sti := by rw [h]; decide
  rw [decode, hop]

theorem decode_of_opSTR {w : Word} (h : opcodeField w = config.opSTR) :
    decode w = .instr (.str (fieldDR w) (fieldSR1 w) (fieldOffset6 w)) := by
  have hop : opcodeOf (opcodeField w) = .str := by rw [h]; decide
  rw [decode, hop]

theorem exec_st (sr : Reg) (off : Word) (s : State) :
    exec (.st sr off) s = .next (memWrite s (s.pc + off) (s.reg sr)) := rfl

/-- The pointer's read, polling or not, changes no register, so the word stored is the register at the start. -/
theorem exec_sti (sr : Reg) (off : Word) (s : State) :
    exec (.sti sr off) s =
      .next (memWrite (memRead s (s.pc + off)).2 (memRead s (s.pc + off)).1 (s.reg sr)) := by
  rw [← memRead_reg s (s.pc + off) sr]
  rfl

theorem exec_str (sr base : Reg) (off : Word) (s : State) :
    exec (.str sr base off) s = .next (memWrite s (s.reg base + off) (s.reg sr)) := rfl

/-- What every store does once its address is formed (R32): the one word is written, every other word and every other
part of the state stay. -/
theorem memWrite_only_word (s : State) (a v : Word) :
    memWrite s a v = { s with mem := (memWrite s a v).mem } ∧ (memWrite s a v).cell a = v ∧
      ∀ b, b ≠ a → (memWrite s a v).cell b = s.cell b := by
  refine ⟨rfl, ?stored, ?kept⟩
  case stored =>
    rw [cell_memWrite, if_pos rfl]
  case kept =>
    intro b hb
    rw [cell_memWrite, if_neg hb]

/-- A word written at the PC is the one the next fetch takes into IR (R45). -/
theorem fetch_memWrite_pc_ir {s : State} (v : Word) (h : s.pc ≠ config.kbsrAddr) :
    (fetch (memWrite s s.pc v)).ir = v := by
  have hpc : (memWrite s s.pc v).pc = s.pc := rfl
  rw [fetch_plain (hpc.trans_ne h), hpc, cell_memWrite, if_pos rfl]

/-- Settles O14: one write at the PC-relative address; at offset 0 that is the PC itself, where the next fetch reads. -/
theorem stStoresPcRelativeWord : Obligations.StStoresPcRelativeWord := by
  refine ⟨?decodes, ?result, ?nextFetch⟩
  case decodes =>
    intro w hw
    exact decode_of_opST (opcodeField_of_and_eq hw (by decide))
  case result =>
    intro sr off s
    exact ⟨_, exec_st sr off s, memWrite_only_word s (s.pc + off) (s.reg sr)⟩
  case nextFetch =>
    intro sr s t hpc ht
    have hea : s.pc + 0 = s.pc := BitVec.add_zero s.pc
    rw [exec_st, hea] at ht
    cases ht
    exact fetch_memWrite_pc_ir (s.reg sr) hpc

/-- Settles O15: one write where the pointer points, in the state the pointer's own read leaves; a pointer away from
KBSR_ADDR is read without changing the state. -/
theorem stiStoresThroughPointer : Obligations.StiStoresThroughPointer := by
  refine ⟨?decodes, ?result, ?plain⟩
  case decodes =>
    intro w hw
    exact decode_of_opSTI (opcodeField_of_and_eq hw (by decide))
  case result =>
    intro sr off s
    exact ⟨_, exec_sti sr off s,
      memWrite_only_word (memRead s (s.pc + off)).2 (memRead s (s.pc + off)).1 (s.reg sr)⟩
  case plain =>
    intro sr off s hptr
    have hexec : exec (.sti sr off) s = .next (memWrite s (s.cell (s.pc + off)) (s.reg sr)) := by
      rw [exec_sti, memRead_plain hptr]
    exact ⟨_, hexec, memWrite_only_word s (s.cell (s.pc + off)) (s.reg sr)⟩

/-- Settles O16: one write at base plus offset. -/
theorem strStoresBasePlusOffset : Obligations.StrStoresBasePlusOffset := by
  constructor
  · intro w hw
    exact decode_of_opSTR (opcodeField_of_and_eq hw (by decide))
  · intro sr base off s
    exact ⟨_, exec_str sr base off s, memWrite_only_word s (s.reg base + off) (s.reg sr)⟩

end Sys2Proof.Proofs
end

section
/-! The decoder and the encoder (spec/30_encoding.md R51 to R59): the form each remaining opcode decodes to, the round
trip in both directions, and the bits that are not read. -/

namespace Sys2Proof.Proofs

open Sys2Proof Sys2Proof.Machine Sys2Proof.Laws

/-! The remaining opcodes. -/

theorem decode_of_opBR {w : Word} (h : opcodeField w = config.opBR) :
    decode w = .instr (.br (w.getLsbD config.brNBit) (w.getLsbD config.brZBit) (w.getLsbD config.brPBit)
      (fieldOffset9 w)) := by
  have hop : opcodeOf (opcodeField w) = .br := by rw [h]; decide
  rw [decode, hop]

theorem decode_of_opJSR {w : Word} (h : opcodeField w = config.opJSR) :
    decode w = if w.getLsbD config.jsrLongBit then .instr (.jsr (fieldOffset11 w))
      else .instr (.jsrr (fieldSR1 w)) := by
  have hop : opcodeOf (opcodeField w) = .jsr := by rw [h]; decide
  rw [decode, hop]

theorem decode_of_opRTI {w : Word} (h : opcodeField w = config.opRTI) : decode w = .instr .rti := by
  have hop : opcodeOf (opcodeField w) = .rti := by rw [h]; decide
  rw [decode, hop]

theorem decode_of_opRES {w : Word} (h : opcodeField w = config.opRES) : decode w = .instr .res := by
  have hop : opcodeOf (opcodeField w) = .res := by rw [h]; decide
  rw [decode, hop]

theorem decode_of_opTRAP {w : Word} (h : opcodeField w = config.opTRAP) : decode w = decodeTrap (trapVector w) := by
  have hop : opcodeOf (opcodeField w) = .trap := by rw [h]; decide
  rw [decode, hop]

/-! The round trip from an instruction. -/

/-- An encoded TRAP decodes as its vector. -/
theorem decode_encodeTrap (v : BitVec 8) : decode (encodeTrap config.opTRAP v) = decodeTrap v := by
  rw [decode_of_opTRAP (opcodeField_encodeTrap _ v), trapVector_encodeTrap]

theorem decode_encode {i : Instr} (h : i.wellFormed = true) : decode (encode i) = .instr i := by
  cases i with
  | addReg dr sr1 sr2 => simp [encode, decode_of_opADD]
  | addImm dr sr1 imm => simp [encode, decode_of_opADD, sext_of_fitsImm5 h]
  | andReg dr sr1 sr2 => simp [encode, decode_of_opAND]
  | andImm dr sr1 imm => simp [encode, decode_of_opAND, sext_of_fitsImm5 h]
  | notReg dr sr => simp [encode, decode_of_opNOT]
  | br n z p off => simp [encode, decode_of_opBR, sext_of_fitsOffset9 h]
  | jmp base => simp [encode, decode_of_opJMP]
  | jsr off => simp [encode, decode_of_opJSR, sext_of_fitsOffset11 h]
  | jsrr base => simp [encode, decode_of_opJSR]
  | ld dr off => simp [encode, decode_of_opLD, sext_of_fitsOffset9 h]
  | ldi dr off => simp [encode, decode_of_opLDI, sext_of_fitsOffset9 h]
  | ldr dr base off => simp [encode, decode_of_opLDR, sext_of_fitsOffset6 h]
  | lea dr off => simp [encode, decode_of_opLEA, sext_of_fitsOffset9 h]
  | st sr off => simp [encode, decode_of_opST, sext_of_fitsOffset9 h]
  | sti sr off => simp [encode, decode_of_opSTI, sext_of_fitsOffset9 h]
  | str sr base off => simp [encode, decode_of_opSTR, sext_of_fitsOffset6 h]
  | trapGetc => exact decode_encodeTrap 0x20
  | trapOut => exact decode_encodeTrap 0x21
  | trapPuts => exact decode_encodeTrap 0x22
  | trapIn => exact decode_encodeTrap 0x23
  | trapPutsp => exact decode_encodeTrap 0x24
  | trapHalt => exact decode_encodeTrap 0x25
  | rti => simp [encode, decode_of_opRTI]
  | res => simp [encode, decode_of_opRES]

/-- Settles O43: the opcode field of every format is the opcode given, so each encoded word decodes to its form, whose
fields are the operands; an operand in range survives the cut and the sign extension. -/
theorem decodeEncodeRoundTrip : Obligations.DecodeEncodeRoundTrip := fun _ h => decode_encode h

/-! The round trip from a word. -/

/-- The six routines have no operands. -/
theorem wellFormed_of_decodeTrap {v : BitVec 8} {i : Instr} (h : decodeTrap v = .instr i) : i.wellFormed = true := by
  unfold decodeTrap at h
  split_ifs at h <;> cases h <;> rfl

/-- Every operand the decoder gives is a sign-extended field, and so in range. -/
theorem wellFormed_of_decode {w : Word} {i : Instr} (h : decode w = .instr i) : i.wellFormed = true := by
  cases hop : opcodeOf (opcodeField w) <;> simp only [decode, hop] at h
  case add | and =>
    split at h <;> cases h
    · exact fitsImm5_sext _
    · rfl
  case jsr =>
    split at h <;> cases h
    · exact fitsOffset11_sext _
    · rfl
  case trap => exact wellFormed_of_decodeTrap h
  case br | ld | ldi | lea | st | sti => cases h; exact fitsOffset9_sext _
  case ldr | str => cases h; exact fitsOffset6_sext _
  case not | jmp | rti | res => cases h; rfl

/-- Settles O44: what is decoded is well formed, and there the round trip of O43 applies. -/
theorem decodedInstructionsWellFormed : Obligations.DecodedInstructionsWellFormed := by
  intro w i h
  have hwf := wellFormed_of_decode h
  exact ⟨hwf, (decode_encode hwf).trans h.symm⟩

/-! Words that agree on a mask agree on the fields the mask keeps. -/

theorem extractLsb'_congr {w w' m : Word} {lo n : Nat} (h : w &&& m = w' &&& m)
    (hm : m.extractLsb' lo n = BitVec.allOnes n) : w.extractLsb' lo n = w'.extractLsb' lo n := by
  have hcut := congrArg (BitVec.extractLsb' lo n) h
  rwa [BitVec.extractLsb'_and, BitVec.extractLsb'_and, hm, BitVec.and_allOnes, BitVec.and_allOnes] at hcut

theorem getLsbD_congr {w w' m : Word} {k : Nat} (h : w &&& m = w' &&& m) (hm : m.getLsbD k = true) :
    w.getLsbD k = w'.getLsbD k := by
  have hbit := congrArg (BitVec.getLsbD · k) h
  simpa [hm] using hbit

theorem getLsbD_of_and_eq {w m v : Word} {k : Nat} (h : w &&& m = v) (hm : m.getLsbD k = true) :
    w.getLsbD k = v.getLsbD k := by
  rw [← h, BitVec.getLsbD_and, hm, Bool.and_true]

theorem opcodeField_congr {w w' m : Word} (h : w &&& m = w' &&& m) (hm : opcodeField m = 0xF) :
    opcodeField w = opcodeField w' :=
  extractLsb'_congr h hm

theorem fieldDR_congr {w w' m : Word} (h : w &&& m = w' &&& m) (hm : m.extractLsb' 9 3 = 7) :
    fieldDR w = fieldDR w' :=
  congrArg Reg.ofBits (extractLsb'_congr h hm)

theorem fieldSR1_congr {w w' m : Word} (h : w &&& m = w' &&& m) (hm : m.extractLsb' 6 3 = 7) :
    fieldSR1 w = fieldSR1 w' :=
  congrArg Reg.ofBits (extractLsb'_congr h hm)

theorem fieldSR2_congr {w w' m : Word} (h : w &&& m = w' &&& m) (hm : m.extractLsb' 0 3 = 7) :
    fieldSR2 w = fieldSR2 w' :=
  congrArg Reg.ofBits (extractLsb'_congr h hm)

/-! The forms that read fewer bits than the word has (R56). -/

/-- ADD and AND in register mode do not read bits 4:3. -/
theorem decode_congr_opReg {w w' : Word} (hop : opcodeField w = config.opADD ∨ opcodeField w = config.opAND)
    (hmode : immFlag w = false) (h : w &&& 0xFFE7 = w' &&& 0xFFE7) : decode w = decode w' := by
  have hop' : opcodeField w = opcodeField w' := opcodeField_congr h (by decide)
  have hmode' : immFlag w = immFlag w' := getLsbD_congr h (by decide)
  have hdr : fieldDR w = fieldDR w' := fieldDR_congr h (by decide)
  have hsr1 : fieldSR1 w = fieldSR1 w' := fieldSR1_congr h (by decide)
  have hsr2 : fieldSR2 w = fieldSR2 w' := fieldSR2_congr h (by decide)
  obtain hop | hop := hop
  · rw [decode_of_opADD hop, decode_of_opADD (hop'.symm.trans hop), ← hmode', hmode, hdr, hsr1, hsr2]
    rfl
  · rw [decode_of_opAND hop, decode_of_opAND (hop'.symm.trans hop), ← hmode', hmode, hdr, hsr1, hsr2]
    rfl

/-- NOT does not read bits 5:0. -/
theorem decode_congr_opNOT {w w' : Word} (hop : opcodeField w = config.opNOT) (h : w &&& 0xFFC0 = w' &&& 0xFFC0) :
    decode w = decode w' := by
  have hop' : opcodeField w = opcodeField w' := opcodeField_congr h (by decide)
  rw [decode_of_opNOT hop, decode_of_opNOT (hop'.symm.trans hop), fieldDR_congr h (by decide),
    fieldSR1_congr h (by decide)]

/-- JMP does not read bits 11:9 and 5:0. -/
theorem decode_congr_opJMP {w w' : Word} (hop : opcodeField w = config.opJMP) (h : w &&& 0xF1C0 = w' &&& 0xF1C0) :
    decode w = decode w' := by
  have hop' : opcodeField w = opcodeField w' := opcodeField_congr h (by decide)
  rw [decode_of_opJMP hop, decode_of_opJMP (hop'.symm.trans hop), fieldSR1_congr h (by decide)]

/-- JSRR does not read bits 10:9 and 5:0. -/
theorem decode_congr_jsrr {w w' : Word} (hop : opcodeField w = config.opJSR)
    (hlong : w.getLsbD config.jsrLongBit = false) (h : w &&& 0xF9C0 = w' &&& 0xF9C0) : decode w = decode w' := by
  have hop' : opcodeField w = opcodeField w' := opcodeField_congr h (by decide)
  have hlong' : w.getLsbD config.jsrLongBit = w'.getLsbD config.jsrLongBit := getLsbD_congr (k := 11) h (by decide)
  have hbase : fieldSR1 w = fieldSR1 w' := fieldSR1_congr h (by decide)
  rw [decode_of_opJSR hop, decode_of_opJSR (hop'.symm.trans hop), ← hlong', hlong, if_neg Bool.false_ne_true,
    if_neg Bool.false_ne_true, hbase]

/-- TRAP does not read bits 11:8. -/
theorem decode_congr_opTRAP {w w' : Word} (hop : opcodeField w = config.opTRAP)
    (h : w &&& 0xF0FF = w' &&& 0xF0FF) : decode w = decode w' := by
  have hop' : opcodeField w = opcodeField w' := opcodeField_congr h (by decide)
  have hv : trapVector w = trapVector w' := extractLsb'_congr h (by decide)
  rw [decode_of_opTRAP hop, decode_of_opTRAP (hop'.symm.trans hop), hv]

/-- Settles O45: the mask of each form keeps the fields its decoding reads. -/
theorem unreadBitsAreIgnored : Obligations.UnreadBitsAreIgnored := by
  intro w w' hcases
  obtain ⟨hf, h⟩ | ⟨hf, h⟩ | ⟨hf, h⟩ | ⟨hf, h⟩ | ⟨hf, h⟩ | ⟨hf, h⟩ | ⟨hf, h⟩ | ⟨hf, h⟩ := hcases
  · exact decode_congr_opReg (.inl (opcodeField_of_and_eq hf (by decide))) (immFlag_of_and_eq hf (by decide)) h
  · exact decode_congr_opReg (.inr (opcodeField_of_and_eq hf (by decide))) (immFlag_of_and_eq hf (by decide)) h
  · exact decode_congr_opNOT (opcodeField_of_and_eq hf (by decide)) h
  · exact decode_congr_opJMP (opcodeField_of_and_eq hf (by decide)) h
  · exact decode_congr_jsrr (opcodeField_of_and_eq hf (by decide)) (getLsbD_of_and_eq (k := 11) hf (by decide)) h
  · exact decode_congr_opTRAP (opcodeField_of_and_eq hf (by decide)) h
  · rw [decode_of_opRTI (opcodeField_of_and_eq hf (by decide)),
      decode_of_opRTI (opcodeField_of_and_eq (h.symm.trans hf) (by decide))]
  · rw [decode_of_opRES (opcodeField_of_and_eq hf (by decide)),
      decode_of_opRES (opcodeField_of_and_eq (h.symm.trans hf) (by decide))]

/-- Settles O47: each word is decoded by evaluation. -/
theorem wordsOfTheManualDecode : Obligations.WordsOfTheManualDecode := by
  unfold Obligations.WordsOfTheManualDecode
  decide

end Sys2Proof.Proofs
end

section
/-! Sign extension (spec/30_encoding.md R53), for every width a field of a word can have. -/

namespace Sys2Proof.Proofs

open Sys2Proof Sys2Proof.Machine Sys2Proof.Laws

/-- The rule's formula: the field, under ones from bit n on if its top bit is set. -/
theorem sext_eq_ite {n : Nat} (hn : n ≤ 16) (v : BitVec n) :
    sext v = if v.getLsbD (n - 1) then v.setWidth 16 ||| (0xFFFF#16 <<< n) else v.setWidth 16 := by
  have hmsb : v.msb = v.getLsbD (n - 1) := BitVec.msb_eq_getLsbD_last v
  rw [← hmsb, sext]
  split_ifs with h
  · ext i hi
    have hones : (BitVec.allOnes 16)[i - n] = true := BitVec.getElem_allOnes _ (by omega)
    by_cases hin : i < n
    · simp [BitVec.getElem_signExtend, hin]
    · simp only [BitVec.getElem_signExtend, hin, h, dite_false, BitVec.getElem_or, BitVec.getElem_shiftLeft]
      exact (Bool.or_eq_true_iff.mpr (.inr hones)).symm
  · exact BitVec.signExtend_eq_setWidth_of_msb_false (by simpa using h)

theorem sext_toNat {n : Nat} (hn : n ≤ 16) (v : BitVec n) :
    (sext v).toNat = if 2 ^ (n - 1) ≤ v.toNat then v.toNat + 65536 - 2 ^ n else v.toNat := by
  have hlt : v.toNat < 2 ^ n := v.isLt
  have hpow : 2 ^ n ≤ 2 ^ 16 := Nat.pow_le_pow_right (by omega) hn
  have hmod : v.toNat % 2 ^ 16 = v.toNat := Nat.mod_eq_of_lt (by omega)
  rw [sext, BitVec.toNat_signExtend, BitVec.toNat_setWidth, hmod, BitVec.msb_eq_decide]
  simp only [decide_eq_true_eq]
  split_ifs <;> omega

theorem sext_toInt_range {n : Nat} (hn : n ≤ 16) (v : BitVec n) :
    -(2 ^ (n - 1) : Int) ≤ (sext v).toInt ∧ (sext v).toInt ≤ (2 ^ (n - 1) : Int) - 1 := by
  rw [sext, BitVec.toInt_signExtend_of_le hn]
  exact ⟨BitVec.le_toInt v, Int.le_sub_one_of_lt BitVec.toInt_lt⟩

theorem trapVector_toNat (w : Word) : (trapVector w).toNat = w.toNat % 256 := by
  rw [trapVector, BitVec.extractLsb'_toNat, Nat.shiftRight_zero]

theorem le_sixteen_of_mem_widths {n : Nat} (h : n ∈ [5, 6, 9, 11]) : n ≤ 16 := by
  revert n; decide

/-- Settles O37: the four widths are below 16, and each of the decoder's fields is a cut at bit 0. -/
theorem signExtensionFormula : Obligations.SignExtensionFormula := by
  refine ⟨fun n hn v => sext_eq_ite (le_sixteen_of_mem_widths hn) v,
    fun n hn v => sext_toNat (le_sixteen_of_mem_widths hn) v,
    fun n hn v => sext_toInt_range (le_sixteen_of_mem_widths hn) v, fun w => ?cuts, by decide, by decide⟩
  case cuts =>
    refine ⟨?_, ?_, ?_, ?_, trapVector_toNat w⟩
    · rw [fieldImm5, BitVec.setWidth_eq_extractLsb' (by decide)]
    · rw [fieldOffset6, BitVec.setWidth_eq_extractLsb' (by decide)]
    · rw [fieldOffset9, BitVec.setWidth_eq_extractLsb' (by decide)]
    · rw [fieldOffset11, BitVec.setWidth_eq_extractLsb' (by decide)]

end Sys2Proof.Proofs
end

section
/-! What each control transfer and each trap routine does (spec/41_control.md R80 to R84, spec/44_trap_reserved.md R110
to R119), as one equation per instruction. -/

namespace Sys2Proof.Proofs

open Sys2Proof Sys2Proof.Machine Sys2Proof.Laws

theorem exec_br (n z p : Bool) (off : Word) (s : State) :
    exec (.br n z p off) s = .next (if branchTaken n z p s.cond then s.setPc (s.pc + off) else s) := rfl

theorem exec_jsr (off : Word) (s : State) : exec (.jsr off) s = .next ((linkR7 s).setPc (s.pc + off)) := rfl

theorem exec_jsrr (base : Reg) (s : State) :
    exec (.jsrr base) s = .next ((linkR7 s).setPc ((linkR7 s).reg base)) := rfl

theorem exec_trapGetc_of_empty {s : State} (h : s.keyIn = []) : exec .trapGetc s = .next (hold s) := by
  simp only [exec, execTrapGetc, kbdRead, h]

theorem exec_trapGetc_of_key {s : State} {c : Byte} {rest : List Byte} (h : s.keyIn = c :: rest) :
    exec .trapGetc s = .next (storeChar { s with keyIn := rest } c) := by
  simp only [exec, execTrapGetc, kbdRead, h]
  rfl

theorem exec_trapOut (s : State) : exec .trapOut s = .next (s.conOut (lowByte (s.reg .r0))) := rfl

theorem exec_trapIn_of_empty {s : State} (h : s.keyIn = []) : exec .trapIn s = .next (hold s) := by
  simp only [exec, execTrapIn, kbdRead, h]

theorem exec_trapIn_of_key {s : State} {c : Byte} {rest : List Byte} (h : s.keyIn = c :: rest) :
    exec .trapIn s = .next (storeChar (State.conOut { s with keyIn := rest } c) c) := by
  simp only [exec, execTrapIn, kbdRead, h]
  rfl

/-- Bytes sent one by one stand at the end of the output in order. -/
theorem foldl_conOut (bytes : List Byte) (s : State) :
    bytes.foldl State.conOut s = { s with console := s.console ++ bytes } := by
  induction bytes generalizing s with
  | nil => simp
  | cons b bytes ih => rw [List.foldl_cons, ih, conOut_console, List.append_assoc]; rfl

theorem exec_trapHalt (s : State) :
    exec .trapHalt s = .next { s with console := s.console ++ config.haltMsg, run := .halted } := by
  have hentry : trapEntry s = s := rfl
  simp only [exec, execTrapHalt, foldl_conOut, hentry]

theorem exec_rti (s : State) : exec .rti s = .next (raiseFault .reservedOpcode s) := rfl

theorem exec_res (s : State) : exec .res s = .next (raiseFault .reservedOpcode s) := rfl

theorem execUndefinedTrap_eq (v : BitVec 8) (s : State) :
    execUndefinedTrap v s = .next (raiseFault .badTrapVector s) := rfl

/-- A character with a zero byte above it is the character widened (decision D15). -/
theorem zext8_eq_append (c : Byte) : zext8 c = 0#8 ++ c := by
  rw [zext8, BitVec.setWidth_eq_append (by decide), BitVec.cast_eq]

theorem storeChar_eq (s : State) (c : Byte) :
    storeChar s c = { s with regs := s.regs.set .r0 (0#8 ++ c) } := by
  rw [← zext8_eq_append]
  rfl

end Sys2Proof.Proofs
end

section
/-! BR, JSR, JSRR (spec/41_control.md R80, R83, R84). -/

namespace Sys2Proof.Proofs

open Sys2Proof Sys2Proof.Machine Sys2Proof.Laws

/-- The AND of mask and one-hot code is nonzero exactly when the mask bit of the current flag is set. -/
theorem branchTaken_iff (n z p : Bool) (c : Cond) :
    branchTaken n z p c = true ↔
      (n = true ∧ c = .neg) ∨ (z = true ∧ c = .zero) ∨ (p = true ∧ c = .pos) := by
  cases c <;> revert n z p <;> decide

/-- Settles O6: the opcode gives the form, and the AND test is the test of the flag's own bit. -/
theorem branchTakenByCurrentFlag : Obligations.BranchTakenByCurrentFlag := by
  constructor
  · intro w hw
    exact decode_of_opBR (opcodeField_of_and_eq hw (by decide))
  · intro n z p off s
    rw [exec_br]
    simp only [branchTaken_iff]
    split_ifs <;> rfl

/-- Settles O8: the long flag is set, and JSR is the link and a jump. -/
theorem jsrLinksAndJumpsRelative : Obligations.JsrLinksAndJumpsRelative := by
  constructor
  · intro w hw
    have hlong : w.getLsbD config.jsrLongBit = true := getLsbD_of_and_eq (k := 11) hw (by decide)
    rw [decode_of_opJSR (opcodeField_of_and_eq hw (by decide)), if_pos hlong, fieldOffset11]
  · intro off s
    rw [exec_jsr]
    rfl

/-- R7 holds the link by the time the base register is read; every other base holds what it held (decision D20). -/
theorem reg_linkR7 (s : State) (r : Reg) : (linkR7 s).reg r = if r = .r7 then s.pc else s.reg r :=
  regs_get_set s.regs .r7 r s.pc

/-- Settles O9: the long flag is clear, and the base is read from the linked registers. -/
theorem jsrrLinksBeforeReadingBase : Obligations.JsrrLinksBeforeReadingBase := by
  constructor
  · intro w hw
    have hlong : w.getLsbD config.jsrLongBit = false := getLsbD_of_and_eq (k := 11) hw (by decide)
    rw [decode_of_opJSR (opcodeField_of_and_eq hw (by decide)), hlong, if_neg Bool.false_ne_true]
  · intro base s
    rw [exec_jsrr, reg_linkR7]
    rfl

end Sys2Proof.Proofs
end

section
/-! Everything an instruction can do. `Effect` lists the shapes of change that the tables of the spec speak of
(spec/10_state.md R12, R13, R16, spec/20_memory.md R46, spec/44_trap_reserved.md R120, R121); `exec_effect` ties it to
`exec`, and the frame statements follow by its cases. -/

namespace Sys2Proof.Proofs

open Sys2Proof Sys2Proof.Machine Sys2Proof.Laws

/-! Reads in a row. -/

/-- The state after reads at the addresses listed, in order. -/
def readAll (addrs : List Word) (s : State) : State := addrs.foldl (fun u a => (memRead u a).2) s

@[simp] theorem readAll_cons (a : Word) (addrs : List Word) (s : State) :
    readAll (a :: addrs) s = readAll addrs (memRead s a).2 := rfl

/-- Reads away from KBSR_ADDR change nothing. -/
theorem readAll_plain {addrs : List Word} (s : State) (h : config.kbsrAddr ∉ addrs) : readAll addrs s = s := by
  induction addrs with
  | nil => rfl
  | cons a addrs ih =>
    obtain ⟨ha, hrest⟩ := not_or.mp (mt List.mem_cons.mpr h)
    rw [readAll_cons, memRead_plain (Ne.symm ha), ih hrest]

theorem readAll_frame (addrs : List Word) (s : State) : SameButPolls s (readAll addrs s) := by
  induction addrs generalizing s with
  | nil => exact sameButPolls_refl s
  | cons a addrs ih => exact sameButPolls_trans (memRead_frame s a) (ih _)

@[simp] theorem readAll_regs (addrs : List Word) (s : State) : (readAll addrs s).regs = s.regs :=
  (readAll_frame addrs s).1
@[simp] theorem readAll_pc (addrs : List Word) (s : State) : (readAll addrs s).pc = s.pc :=
  (readAll_frame addrs s).2.1
@[simp] theorem readAll_cond (addrs : List Word) (s : State) : (readAll addrs s).cond = s.cond :=
  (readAll_frame addrs s).2.2.1
@[simp] theorem readAll_run (addrs : List Word) (s : State) : (readAll addrs s).run = s.run :=
  (readAll_frame addrs s).2.2.2.1
@[simp] theorem readAll_ir (addrs : List Word) (s : State) : (readAll addrs s).ir = s.ir :=
  (readAll_frame addrs s).2.2.2.2.1
@[simp] theorem readAll_console (addrs : List Word) (s : State) : (readAll addrs s).console = s.console :=
  (readAll_frame addrs s).2.2.2.2.2.1
theorem readAll_cells (addrs : List Word) (s : State) :
    SameCellsBut [config.kbsrAddr, config.kbdrAddr] s (readAll addrs s) :=
  (readAll_frame addrs s).2.2.2.2.2.2

theorem readAll_keyIn_suffix (addrs : List Word) (s : State) : (readAll addrs s).keyIn <:+ s.keyIn := by
  induction addrs generalizing s with
  | nil => exact List.suffix_rfl
  | cons a addrs ih => exact (ih _).trans (memRead_keyIn_suffix s a)

theorem wf_readAll {s : State} (addrs : List Word) (h : Memory.wf s.mem = true) :
    Memory.wf (readAll addrs s).mem = true := by
  induction addrs generalizing s with
  | nil => exact h
  | cons a addrs ih => exact ih (wf_memRead a h)

/-! The shapes of change. -/

/-- The states an instruction can leave from `s`, by what it changes. -/
inductive Effect (s : State) : Instr → State → Prop where
  /-- The seven that end in `setcc(DR)` (R16). -/
  | result {i : Instr} {dr : Reg} {v : Word} : flagSource i = some dr →
      Effect s i (writeResult (readAll (readsFrom i s) s) dr v)
  /-- ST, STI, STR. -/
  | store {i : Instr} {a v : Word} : flagSource i = none → storedTo i s = [a] →
      Effect s i (memWrite (readAll (readsFrom i s) s) a v)
  /-- BR, taken or not. -/
  | branch {n z p : Bool} {off t : Word} : Effect s (.br n z p off) (s.setPc t)
  /-- JMP. -/
  | jump {base : Reg} {t : Word} : Effect s (.jmp base) (s.setPc t)
  /-- JSR. -/
  | call {off t : Word} : Effect s (.jsr off) ((linkR7 s).setPc t)
  /-- JSRR. -/
  | callReg {base : Reg} {t : Word} : Effect s (.jsrr base) ((linkR7 s).setPc t)
  /-- GETC or IN without a character (R143). -/
  | waits {i : Instr} : i = .trapGetc ∨ i = .trapIn → s.keyIn = [] → Effect s i (hold s)
  /-- GETC with a character. -/
  | getc {c : Byte} {rest : List Byte} : s.keyIn = c :: rest →
      Effect s .trapGetc (storeChar { s with keyIn := rest } c)
  /-- IN with a character. -/
  | echo {c : Byte} {rest : List Byte} : s.keyIn = c :: rest →
      Effect s .trapIn (storeChar (State.conOut { s with keyIn := rest } c) c)
  /-- OUT. -/
  | out {b : Byte} : Effect s .trapOut (s.conOut b)
  /-- PUTS, PUTSP. -/
  | string {i : Instr} {t : State} : i = .trapPuts ∨ i = .trapPutsp → StringFrame s t → Effect s i t
  /-- HALT. -/
  | halt : Effect s .trapHalt { s with console := s.console ++ config.haltMsg, run := .halted }
  /-- RTI, RES. -/
  | reserved {i : Instr} : i = .rti ∨ i = .res → Effect s i (raiseFault .reservedOpcode s)

/-- Every instruction answers a next state, of one of the shapes. -/
theorem exec_next_effect (i : Instr) (s : State) : ∃ t, exec i s = .next t ∧ Effect s i t := by
  cases i with
  | addReg dr sr1 sr2 => exact ⟨_, exec_addReg .., .result rfl⟩
  | addImm dr sr1 imm => exact ⟨_, exec_addImm .., .result rfl⟩
  | andReg dr sr1 sr2 => exact ⟨_, exec_andReg .., .result rfl⟩
  | andImm dr sr1 imm => exact ⟨_, exec_andImm .., .result rfl⟩
  | notReg dr sr => exact ⟨_, exec_notReg .., .result rfl⟩
  | br n z p off =>
    cases htaken : branchTaken n z p s.cond with
    | true => exact ⟨_, by rw [exec_br, htaken, if_pos rfl], .branch⟩
    | false => exact ⟨s, by rw [exec_br, htaken, if_neg Bool.false_ne_true], .branch (t := s.pc)⟩
  | jmp base => exact ⟨_, exec_jmp .., .jump⟩
  | jsr off => exact ⟨_, exec_jsr .., .call⟩
  | jsrr base => exact ⟨_, exec_jsrr .., .callReg⟩
  | ld dr off => exact ⟨_, exec_ld .., .result rfl⟩
  | ldi dr off => exact ⟨_, exec_ldi .., .result rfl⟩
  | ldr dr base off => exact ⟨_, exec_ldr .., .result rfl⟩
  | lea dr off => exact ⟨_, exec_lea .., .result rfl⟩
  | st sr off => exact ⟨_, exec_st .., .store rfl rfl⟩
  | sti sr off => exact ⟨_, exec_sti .., .store rfl rfl⟩
  | str sr base off => exact ⟨_, exec_str .., .store rfl rfl⟩
  | trapGetc =>
    cases hk : s.keyIn with
    | nil => exact ⟨_, exec_trapGetc_of_empty hk, .waits (.inl rfl) hk⟩
    | cons c rest => exact ⟨_, exec_trapGetc_of_key hk, .getc hk⟩
  | trapOut => exact ⟨_, exec_trapOut s, .out⟩
  | trapPuts =>
    obtain ⟨t, hwalk, ht⟩ := execTrapPuts_next s
    exact ⟨t, ht, .string (.inl rfl) (putsWalk_frame _ hwalk)⟩
  | trapIn =>
    cases hk : s.keyIn with
    | nil => exact ⟨_, exec_trapIn_of_empty hk, .waits (.inr rfl) hk⟩
    | cons c rest => exact ⟨_, exec_trapIn_of_key hk, .echo hk⟩
  | trapPutsp =>
    obtain ⟨t, hwalk, ht⟩ := execTrapPutsp_next s
    exact ⟨t, ht, .string (.inr rfl) (putspWalk_frame _ hwalk)⟩
  | trapHalt => exact ⟨_, exec_trapHalt s, .halt⟩
  | rti => exact ⟨_, exec_rti s, .reserved (.inl rfl)⟩
  | res => exact ⟨_, exec_res s, .reserved (.inr rfl)⟩

theorem exec_effect {i : Instr} {s t : State} (h : exec i s = .next t) : Effect s i t := by
  obtain ⟨u, hu, heffect⟩ := exec_next_effect i s
  rw [h] at hu
  cases hu
  exact heffect

end Sys2Proof.Proofs
end

section
/-! What an instruction leaves unchanged: COND, registers, memory, PC, environment, RUN (spec/10_state.md R12, R13, R16,
spec/20_memory.md R46, spec/60_exceptions.md R139), each by the cases of `Effect`. -/

namespace Sys2Proof.Proofs

open Sys2Proof Sys2Proof.Machine Sys2Proof.Laws

/-! COND. -/

/-- COND stays where no DR sets it, and describes DR where one does. -/
theorem exec_cond {i : Instr} {s t : State} (h : exec i s = .next t) :
    t.cond = (flagSource i).elim s.cond (fun dr => signFlag (t.reg dr)) := by
  cases exec_effect h with
  | result hdr => rw [hdr, Option.elim_some, reg_writeResult_self, writeResult_cond, flagOf_eq_signFlag]
  | store hdr _ => rw [hdr]; exact readAll_cond _ s
  | branch | jump | call | callReg | getc | echo | out | halt => rfl
  | waits hi _ => obtain rfl | rfl := hi <;> rfl
  | string hi hframe =>
    obtain ⟨-, -, hcond, -⟩ := hframe
    obtain rfl | rfl := hi <;> exact hcond
  | reserved hi => obtain rfl | rfl := hi <;> rfl

/-- Settles O38: both clauses are `exec_cond`, read for an instruction without and with a DR. -/
theorem condFollowsOnlyTheSeven : Obligations.CondFollowsOnlyTheSeven := by
  constructor
  · intro i s t h hdr
    rw [exec_cond h, hdr, Option.elim_none]
  · intro i dr s t h hdr
    rw [exec_cond h, hdr, Option.elim_some]

/-! General registers. -/

/-- DR of the seven is the one register they write. -/
theorem writtenRegs_of_flagSource {i : Instr} {dr : Reg} (h : flagSource i = some dr) : writtenRegs i = [dr] := by
  cases i <;> cases h <;> rfl

theorem sameRegsBut_of_regs_eq {s t : State} (ds : List Reg) (h : t.regs = s.regs) : SameRegsBut ds s t :=
  fun r _ => reg_congr h r

/-- One register written, whatever else changes. -/
theorem sameRegsBut_of_regs_set {s t : State} {d : Reg} {v : Word} (h : t.regs = s.regs.set d v) :
    SameRegsBut [d] s t := by
  intro r hr
  rw [State.reg, h, regs_get_set_ne _ _ (by simpa using hr), State.reg]

/-- Settles O39: each shape writes no register, or the one the table names. -/
theorem onlyNamedRegistersChange : Obligations.OnlyNamedRegistersChange := by
  intro i s t h
  cases exec_effect h with
  | result hdr =>
    rw [writtenRegs_of_flagSource hdr]
    exact sameRegsBut_of_regs_set (by rw [writeResult_regs, readAll_regs])
  | store => exact sameRegsBut_of_regs_eq _ (readAll_regs _ s)
  | branch | jump | out | halt | waits | reserved => exact sameRegsBut_of_regs_eq _ rfl
  | call | callReg => exact sameRegsBut_of_regs_set (linkR7_regs s)
  | getc | echo => exact sameRegsBut_of_regs_set (storeChar_regs _ _)
  | string _ hframe => exact sameRegsBut_of_regs_eq _ hframe.1

/-! Memory. -/

/-- An instruction changes the word it stores to and, of the other words, only what its own reads, or its string loop,
change. -/
theorem exec_cells {i : Instr} {s t : State} {addrs : List Word} (h : exec i s = .next t)
    (hreads : SameCellsBut addrs s (readAll (readsFrom i s) s))
    (hstring : i = .trapPuts ∨ i = .trapPutsp → SameCellsBut addrs s t) :
    SameCellsBut (storedTo i s ++ addrs) s t := by
  intro b hb
  obtain ⟨hstored, hother⟩ := not_or.mp (mt List.mem_append.mpr hb)
  cases exec_effect h with
  | result => exact hreads b hother
  | store _ hat =>
    rw [hat, List.mem_singleton] at hstored
    rw [cell_memWrite, if_neg hstored]
    exact hreads b hother
  | branch | jump | call | callReg | waits | getc | echo | out | halt | reserved => rfl
  | string hi _ => exact hstring hi b hother

theorem stringFrame_of_exec {i : Instr} {s t : State} (h : exec i s = .next t)
    (hi : i = .trapPuts ∨ i = .trapPutsp) : StringFrame s t := by
  obtain rfl | rfl := hi
  · obtain ⟨u, hwalk, hu⟩ := execTrapPuts_next s
    cases h.symm.trans hu
    exact putsWalk_frame _ hwalk
  · obtain ⟨u, hwalk, hu⟩ := execTrapPutsp_next s
    cases h.symm.trans hu
    exact putspWalk_frame _ hwalk

/-- Settles O40: reads, those of the string loops included, change no word but the two mapped ones, and reads away from
KBSR_ADDR none at all. -/
theorem onlyStoredWordAndPollsChangeMemory : Obligations.OnlyStoredWordAndPollsChangeMemory := by
  constructor
  · intro i s t h
    refine exec_cells h (readAll_cells _ s) (fun hi => ?_)
    obtain ⟨-, -, -, -, -, hcells, -⟩ := stringFrame_of_exec h hi
    exact hcells
  · intro i s t h hputs hputsp hreads
    have hcells := exec_cells (addrs := []) h (by rw [readAll_plain s hreads]; exact fun _ _ => rfl)
      (fun hi => absurd hi (not_or.mpr ⟨hputs, hputsp⟩))
    rwa [List.append_nil] at hcells

/-! The PC. -/

/-- Settles O41: every shape but the four transfers and the hold keeps the PC. -/
theorem onlyControlTransferWritesPc : Obligations.OnlyControlTransferWritesPc := by
  intro i s t h hwait hbr hjmp hjsr hjsrr
  cases exec_effect h with
  | result | store => exact readAll_pc _ s
  | branch => exact absurd rfl (hbr _ _ _ _)
  | jump => exact absurd rfl (hjmp _)
  | call => exact absurd rfl (hjsr _)
  | callReg => exact absurd rfl (hjsrr _)
  | waits hi hk => exact absurd (awaitsKey_iff.mpr ⟨hi, hk⟩) (by simp [hwait])
  | getc | echo | out | halt | reserved => rfl
  | string _ hframe => exact hframe.2.1

/-! The environment, IR and RUN. -/

theorem exec_console_prefix {i : Instr} {s t : State} (h : exec i s = .next t) : s.console <+: t.console := by
  cases exec_effect h with
  | result | store => exact (readAll_console _ s).symm ▸ List.prefix_rfl
  | branch | jump | call | callReg | waits | getc | reserved => exact List.prefix_rfl
  | echo | out | halt => exact List.prefix_append _ _
  | string _ hframe =>
    obtain ⟨-, -, -, -, -, -, hconsole, -⟩ := hframe
    exact hconsole

theorem exec_keyIn_suffix {i : Instr} {s t : State} (h : exec i s = .next t) : t.keyIn <:+ s.keyIn := by
  cases exec_effect h with
  | result | store => exact readAll_keyIn_suffix _ s
  | branch | jump | call | callReg | waits | out | halt | reserved => exact List.suffix_rfl
  | getc hk | echo hk => rw [hk]; exact List.suffix_cons _ _
  | string _ hframe =>
    obtain ⟨-, -, -, -, -, -, -, hkeys, -⟩ := hframe
    exact hkeys

theorem exec_ir {i : Instr} {s t : State} (h : exec i s = .next t) : t.ir = s.ir := by
  cases exec_effect h with
  | result | store => exact readAll_ir _ s
  | branch | jump | call | callReg | waits | getc | echo | out | halt | reserved => rfl
  | string _ hframe =>
    obtain ⟨-, -, -, -, hir, -⟩ := hframe
    exact hir

theorem wf_exec {i : Instr} {s t : State} (hwf : Memory.wf s.mem = true) (h : exec i s = .next t) :
    Memory.wf t.mem = true := by
  cases exec_effect h with
  | result => exact wf_readAll _ hwf
  | store => exact wf_setCell _ _ (wf_readAll _ hwf)
  | branch | jump | call | callReg | waits | getc | echo | out | halt | reserved => exact hwf
  | string _ hframe =>
    obtain ⟨-, -, -, -, -, -, -, -, hmem⟩ := hframe
    exact hmem hwf

theorem exec_console_eq {i : Instr} {s t : State} (h : exec i s = .next t) (hout : i ≠ .trapOut)
    (hputs : i ≠ .trapPuts) (hin : i ≠ .trapIn) (hputsp : i ≠ .trapPutsp) (hhalt : i ≠ .trapHalt) :
    t.console = s.console := by
  cases exec_effect h with
  | result | store => exact readAll_console _ s
  | branch | jump | call | callReg | waits | getc | reserved => rfl
  | echo => exact absurd rfl hin
  | out => exact absurd rfl hout
  | halt => exact absurd rfl hhalt
  | string hi _ => exact absurd hi (not_or.mpr ⟨hputs, hputsp⟩)

theorem exec_sameKeyboard {i : Instr} {s t : State} (h : exec i s = .next t) (hgetc : i ≠ .trapGetc)
    (hin : i ≠ .trapIn) (hputs : i ≠ .trapPuts) (hputsp : i ≠ .trapPutsp)
    (hreads : config.kbsrAddr ∉ readsFrom i s) : SameKeyboard s t := by
  cases exec_effect h with
  | result | store =>
    rw [readAll_plain s hreads]
    exact ⟨rfl, rfl, rfl⟩
  | branch | jump | call | callReg | waits | out | halt | reserved => exact ⟨rfl, rfl, rfl⟩
  | getc => exact absurd rfl hgetc
  | echo => exact absurd rfl hin
  | string hi _ => exact absurd hi (not_or.mpr ⟨hputs, hputsp⟩)

/-- RUN after an instruction or an undefined TRAP run in `s`: HALT stops the run, the two reserved opcodes and the
undefined vectors end it in their fault (R21, R130), everything else keeps RUN. -/
def runAfter (d : Decoded) (s : State) : RunState :=
  match d with
  | .instr .trapHalt => .halted
  | .instr .rti => .faulted .reservedOpcode s.ir (s.pc - 1)
  | .instr .res => .faulted .reservedOpcode s.ir (s.pc - 1)
  | .undefinedTrap _ => .faulted .badTrapVector s.ir (s.pc - 1)
  | .instr _ => s.run

theorem runAfter_of_ne {i : Instr} (s : State) (hhalt : i ≠ .trapHalt) (hrti : i ≠ .rti) (hres : i ≠ .res) :
    runAfter (.instr i) s = s.run := by
  cases i with
  | trapHalt => exact absurd rfl hhalt
  | rti => exact absurd rfl hrti
  | res => exact absurd rfl hres
  | _ => rfl

theorem runAfter_of_flagSource {i : Instr} {dr : Reg} (s : State) (h : flagSource i = some dr) :
    runAfter (.instr i) s = s.run := by
  cases i <;> cases h <;> rfl

theorem runAfter_of_storedTo {i : Instr} {s : State} {a : Word} (h : storedTo i s = [a]) :
    runAfter (.instr i) s = s.run := by
  cases i <;> cases h <;> rfl

theorem exec_run {i : Instr} {s t : State} (h : exec i s = .next t) : t.run = runAfter (.instr i) s := by
  cases exec_effect h with
  | result hdr => rw [runAfter_of_flagSource s hdr]; exact readAll_run _ s
  | store _ hat => rw [runAfter_of_storedTo hat]; exact readAll_run _ s
  | branch | jump | call | callReg | getc | echo | out | halt => rfl
  | waits hi _ => obtain rfl | rfl := hi <;> rfl
  | reserved hi => obtain rfl | rfl := hi <;> rfl
  | string hi hframe =>
    obtain ⟨-, -, -, hrun, -⟩ := hframe
    obtain rfl | rfl := hi <;> exact hrun

/-- Settles O42: one clause per lemma above. -/
theorem environmentAndRunFrame : Obligations.EnvironmentAndRunFrame := by
  intro i s t h
  refine ⟨exec_console_prefix h, exec_keyIn_suffix h, exec_ir h, exec_console_eq h, ?run, exec_sameKeyboard h⟩
  case run =>
    intro hhalt hrti hres
    rw [exec_run h, runAfter_of_ne s hhalt hrti hres]

end Sys2Proof.Proofs
end

section
/-! The step (spec/10_state.md R21, R26, spec/60_exceptions.md R130, R131, R143): what it runs, how it ends, and the
traps and faults as steps. -/

namespace Sys2Proof.Proofs

open Sys2Proof Sys2Proof.Machine Sys2Proof.Laws

/-! What a step runs. -/

/-- The fault of a fetched word records the word and the address it was fetched from. -/
theorem raiseFault_fetch (cause : FaultCause) (s : State) :
    raiseFault cause (fetch s) = { fetch s with run := .faulted cause (fetch s).ir s.pc } := by
  have haddr : (fetch s).pc - 1 = s.pc := by rw [fetch_pc, BitVec.add_sub_cancel]
  rw [← haddr]
  rfl

theorem awaitsKey_eq_false {i : Instr} {s : State} (h : ¬ ((i = .trapGetc ∨ i = .trapIn) ∧ s.keyIn = [])) :
    awaitsKey i s = false :=
  Bool.eq_false_iff.mpr (mt awaitsKey_iff.mp h)

theorem awaitsKey_of_key {i : Instr} {s : State} {c : Byte} {rest : List Byte} (h : s.keyIn = c :: rest) :
    awaitsKey i s = false :=
  awaitsKey_eq_false (by simp [h])

/-- Settles O27: the fetch is its definition, and `step` runs what it decodes. -/
theorem stepRunsDecodedInstruction : Obligations.StepRunsDecodedInstruction := by
  refine ⟨fun _ => rfl, ?instruction, fun _ _ hrun hd => step_of_undefinedTrap hrun hd⟩
  case instruction =>
    intro s i hrun hd hwait
    exact step_of_instr hrun hd (awaitsKey_eq_false hwait)

/-- Settles O31: every decoded word is an undefined TRAP, an instruction that waits, or one that answers a next
state. -/
theorem runningCoreAlwaysSteps : Obligations.RunningCoreAlwaysSteps := by
  intro s hrun
  cases hd : decode (fetch s).ir with
  | undefinedTrap v => exact ⟨_, step_of_undefinedTrap hrun hd⟩
  | instr i =>
    cases hwait : awaitsKey i (fetch s) with
    | true => exact ⟨s, step_of_hold hrun hd hwait⟩
    | false =>
      obtain ⟨t, ht, -⟩ := exec_next_effect i (fetch s)
      exact ⟨t, (step_of_instr hrun hd hwait).trans ht⟩

/-! How a step ends. -/

/-- RUN after a step is what the fetched word makes of it. -/
theorem step_run {s t : State} (h : step s = .next t) : t.run = runAfter (decode (fetch s).ir) (fetch s) := by
  obtain ⟨-, ⟨v, hd, rfl⟩ | ⟨i, hd, hwait, rfl⟩ | ⟨i, hd, -, hexec⟩⟩ := step_cases h
  · rw [hd]
    rfl
  · obtain ⟨rfl | rfl, -⟩ := awaitsKey_iff.mp hwait <;> rw [hd] <;> exact (fetch_run t).symm
  · rw [hd]
    exact exec_run hexec

theorem runAfter_eq_halted_iff {s : State} (d : Decoded) (hrun : s.run = .running) :
    runAfter d s = .halted ↔ d = .instr .trapHalt := by
  cases d with
  | undefinedTrap v => simp [runAfter]
  | instr i => cases i <;> simp [runAfter, hrun]

theorem runAfter_faulted_iff {s : State} (d : Decoded) (hrun : s.run = .running) :
    (∃ cause ir addr, runAfter d s = .faulted cause ir addr) ↔
      d = .instr .rti ∨ d = .instr .res ∨ ∃ v, d = .undefinedTrap v := by
  cases d with
  | undefinedTrap v => simp [runAfter]
  | instr i => cases i <;> simp [runAfter, hrun]

theorem endsFatally_step_iff {s t : State} (h : step s = .next t) : t.EndsFatally ↔
    decode (fetch s).ir = .instr .rti ∨ decode (fetch s).ir = .instr .res ∨
      ∃ v, decode (fetch s).ir = .undefinedTrap v := by
  obtain ⟨hrun, -⟩ := step_cases h
  rw [State.EndsFatally, step_run h]
  exact runAfter_faulted_iff _ ((fetch_run s).trans hrun)

/-- Settles O30: RUN after a step is read off the decoded word. -/
theorem onlyHaltHaltsAndOnlyDecodeFaults : Obligations.OnlyHaltHaltsAndOnlyDecodeFaults := by
  refine ⟨fun _ _ h => (step_cases h).1, ?halts, fun _ _ h => endsFatally_step_iff h⟩
  case halts =>
    intro s t h
    obtain ⟨hrun, -⟩ := step_cases h
    rw [step_run h]
    exact runAfter_eq_halted_iff _ ((fetch_run s).trans hrun)

/-! Faults. -/

theorem step_of_reserved {s : State} (hrun : s.run = .running)
    (hd : decode (fetch s).ir = .instr .rti ∨ decode (fetch s).ir = .instr .res) :
    step s = .next (raiseFault .reservedOpcode (fetch s)) := by
  obtain hd | hd := hd
  · rw [step_of_instr hrun hd rfl, exec_rti]
  · rw [step_of_instr hrun hd rfl, exec_res]

/-- A step that ends Faulted is the fetch and the fault entry. -/
theorem eq_raiseFault_of_endsFatally {s t : State} (h : step s = .next t) (hend : t.EndsFatally) :
    ∃ cause, t = raiseFault cause (fetch s) := by
  obtain ⟨hrun, -⟩ := step_cases h
  obtain hd | hd | ⟨v, hd⟩ := (endsFatally_step_iff h).mp hend
  · cases h.symm.trans (step_of_reserved hrun (.inl hd))
    exact ⟨_, rfl⟩
  · cases h.symm.trans (step_of_reserved hrun (.inr hd))
    exact ⟨_, rfl⟩
  · cases h.symm.trans (step_of_undefinedTrap hrun hd)
    exact ⟨_, rfl⟩

theorem step_of_faulted {s : State} {cause : FaultCause} {ir addr : Word} (h : s.run = .faulted cause ir addr) :
    step s = .fault (.decodeFault cause ir addr) := by
  unfold step
  rw [h]

theorem step_of_halted {s : State} (h : s.run = .halted) : step s = .refused .halted := by
  unfold step
  rw [h]

/-- Settles O26: the state is the fetched one with a RUN that records word and address, and a Faulted core's step shows
that record. -/
theorem faultEntryChangesOnlyRun : Obligations.FaultEntryChangesOnlyRun := by
  intro s t cause ir addr hrun h hend
  obtain ⟨cause', rfl⟩ := eq_raiseFault_of_endsFatally h ⟨cause, ir, addr, hend⟩
  rw [raiseFault_fetch] at hend ⊢
  cases hend
  exact ⟨rfl, rfl, rfl, fetch_pc s, step_of_faulted rfl⟩

/-- Settles O25: the opcode alone gives the form, and the fault is the whole meaning. -/
theorem reservedOpcodesFault : Obligations.ReservedOpcodesFault := by
  refine ⟨?rti, ?res, exec_rti, exec_res, ?steps⟩
  case rti =>
    intro w hw
    exact decode_of_opRTI (opcodeField_of_and_eq hw (by decide))
  case res =>
    intro w hw
    exact decode_of_opRES (opcodeField_of_and_eq hw (by decide))
  case steps =>
    intro s hrun hd
    rw [step_of_reserved hrun hd, raiseFault_fetch]

/-- A vector outside 0x20 .. 0x25 is none of the six. -/
theorem decodeTrap_of_undefined {v : BitVec 8} (h : v.toNat < 0x20 ∨ 0x25 < v.toNat) :
    decodeTrap v = .undefinedTrap v := by
  have hne : ∀ k : BitVec 8, 0x20 ≤ k.toNat → k.toNat ≤ 0x25 → v ≠ k := by
    rintro k hlo hhi rfl
    omega
  unfold decodeTrap
  rw [if_neg (hne _ (by decide) (by decide)), if_neg (hne _ (by decide) (by decide)),
    if_neg (hne _ (by decide) (by decide)), if_neg (hne _ (by decide) (by decide)),
    if_neg (hne _ (by decide) (by decide)), if_neg (hne _ (by decide) (by decide))]

theorem decode_of_undefinedVector {w : Word} (hop : opcodeField w = config.opTRAP)
    (h : w.toNat % 256 < 0x20 ∨ 0x25 < w.toNat % 256) : decode w = .undefinedTrap (trapVector w) := by
  rw [decode_of_opTRAP hop]
  exact decodeTrap_of_undefined (by rwa [trapVector_toNat])

theorem step_of_undefinedVector {s : State} {v : BitVec 8} (hrun : s.run = .running)
    (hd : decode (fetch s).ir = .undefinedTrap v) :
    step s = .next { fetch s with run := .faulted .badTrapVector (fetch s).ir s.pc } := by
  rw [step_of_undefinedTrap hrun hd, execUndefinedTrap_eq, raiseFault_fetch]

/-- The low byte of a word, as a mask has it. -/
theorem toNat_and_lowByte (w : Word) : (w &&& 0x00FF).toNat = w.toNat % 256 := by
  rw [BitVec.toNat_and]
  exact Nat.and_two_pow_sub_one_eq_mod w.toNat 8

/-- Settles O24: the fault does not look at the vector. -/
theorem undefinedTrapVectorFaults : Obligations.UndefinedTrapVectorFaults := by
  refine ⟨?decodes, execUndefinedTrap_eq, fun _ _ hrun hd => step_of_undefinedVector hrun hd⟩
  case decodes =>
    intro w hw hv
    refine decode_of_undefinedVector (opcodeField_of_and_eq hw (by decide)) ?_
    rwa [BitVec.lt_def, BitVec.lt_def, toNat_and_lowByte] at hv

/-! The six routines. -/

/-- A TRAP word whose low byte is known decodes as its vector. -/
theorem decode_of_vector {w : Word} {v : BitVec 8} (hop : opcodeField w = config.opTRAP)
    (hv : w.toNat % 256 = v.toNat) : decode w = decodeTrap v := by
  rw [decode_of_opTRAP hop, BitVec.eq_of_toNat_eq ((trapVector_toNat w).trans hv)]

/-- Settles O46: the six vectors by value; the rest fault whatever state they are fetched in. -/
theorem sixTrapVectorsDefined : Obligations.SixTrapVectorsDefined := by
  intro w hop
  refine ⟨decode_of_vector (v := 0x20) hop, decode_of_vector (v := 0x21) hop, decode_of_vector (v := 0x22) hop,
    decode_of_vector (v := 0x23) hop, decode_of_vector (v := 0x24) hop, decode_of_vector (v := 0x25) hop, ?undefined⟩
  case undefined =>
    intro hv
    have hd := decode_of_undefinedVector hop hv
    constructor
    · rw [hd, trapVector, ← BitVec.setWidth_eq_extractLsb' (by decide), BitVec.ofNat_toNat]
    · rintro s hrun rfl
      exact step_of_undefinedVector hrun hd

/-- A word with the fixed bits of a TRAP row decodes as the row's own word does. -/
theorem decode_of_trapRow {w v : Word} (hw : w &&& 0xF0FF = v) (hv : v &&& 0xF0FF = v)
    (hop : opcodeField v = config.opTRAP) : decode w = decode v :=
  decode_congr_opTRAP ((opcodeField_of_and_eq hw (by decide)).trans hop) (hw.trans hv.symm)

/-- Settles O17: bits 11:8 are not read, and the key at the front goes to R0. -/
theorem getcConsumesKeyIntoR0 : Obligations.GetcConsumesKeyIntoR0 := by
  constructor
  · intro w hw
    exact (decode_of_trapRow hw (by decide) (by decide)).trans (by decide)
  · intro c rest s hk
    rw [exec_trapGetc_of_key hk, storeChar_eq]

/-- Settles O18: bits 11:8 are not read, and OUT sends one byte. -/
theorem outAppendsLowByteOfR0 : Obligations.OutAppendsLowByteOfR0 := by
  constructor
  · intro w hw
    exact (decode_of_trapRow hw (by decide) (by decide)).trans (by decide)
  · exact exec_trapOut

/-- Settles O21: as GETC, after the echo. -/
theorem inEchoesKeyIntoR0 : Obligations.InEchoesKeyIntoR0 := by
  constructor
  · intro w hw
    exact (decode_of_trapRow hw (by decide) (by decide)).trans (by decide)
  · intro c rest s hk
    rw [exec_trapIn_of_key hk, storeChar_eq]
    rfl

/-- A step at a plain address runs the word that stands there. -/
theorem step_plain {s : State} {i : Instr} (hrun : s.run = .running) (hpc : s.pc ≠ config.kbsrAddr)
    (hd : decode (s.cell s.pc) = .instr i) (hwait : awaitsKey i s = false) :
    step s = exec i { s with ir := s.cell s.pc, pc := s.pc + 1 } := by
  have hfetch := fetch_plain hpc
  rw [step_of_instr hrun (i := i) (by rw [hfetch]; exact hd) (by rw [hfetch]; exact hwait), hfetch]

/-- Settles O23: the fetch of a HALT at a plain address and the routine's own equation. -/
theorem haltPrintsMessageAndStops : Obligations.HaltPrintsMessageAndStops := by
  refine ⟨?decodes, exec_trapHalt, ?steps⟩
  case decodes =>
    intro w hw
    exact (decode_of_trapRow hw (by decide) (by decide)).trans (by decide)
  case steps =>
    intro s hrun hpc hd
    exact ⟨_, (step_plain hrun hpc hd rfl).trans (exec_trapHalt _), rfl, rfl, rfl, rfl, rfl, rfl, step_of_halted rfl⟩

/-- Settles O29: the hold is `step`'s own case; with characters supplied the fetched state has one at its front. -/
theorem holdLastsUntilKeyArrives : Obligations.HoldLastsUntilKeyArrives := by
  refine ⟨?holds, ?getc, ?echo⟩
  case holds =>
    intro s hrun hk hd
    obtain hd | hd := hd
    · exact step_of_hold hrun hd (awaitsKey_iff.mpr ⟨.inl rfl, hk⟩)
    · exact step_of_hold hrun hd (awaitsKey_iff.mpr ⟨.inr rfl, hk⟩)
  case getc =>
    intro s c cs hrun hpc hk hd
    have hkeys : (s.supplyKeys (c :: cs)).keyIn = c :: cs := by rw [supplyKeys_keyIn, hk, List.nil_append]
    rw [step_plain (s := s.supplyKeys (c :: cs)) hrun hpc hd (awaitsKey_of_key hkeys),
      exec_trapGetc_of_key (c := c) (rest := cs), storeChar_eq]
    · rfl
    · exact hkeys
  case echo =>
    intro s c cs hrun hpc hk hd
    have hkeys : (s.supplyKeys (c :: cs)).keyIn = c :: cs := by rw [supplyKeys_keyIn, hk, List.nil_append]
    rw [step_plain (s := s.supplyKeys (c :: cs)) hrun hpc hd (awaitsKey_of_key hkeys),
      exec_trapIn_of_key (c := c) (rest := cs), storeChar_eq]
    · rfl
    · exact hkeys

/-! Placed words, and branches that do nothing. -/

theorem withFetchWord_pc_ne_kbsr (s : State) (nbits w : Nat) : (s.withFetchWord nbits w).pc ≠ config.kbsrAddr := by
  have hnext : config.kbsrAddr + 1 ≠ config.kbsrAddr := by decide
  unfold State.withFetchWord
  rw [setCell_pc]
  split_ifs with h
  · rwa [h]
  · exact h

theorem withFetchWord_cell_pc (s : State) (w : Word) :
    (s.withFetchWord 16 w.toNat).cell (s.withFetchWord 16 w.toNat).pc = w := by
  unfold State.withFetchWord
  rw [setCell_pc, cell_setCell_self, Nat.mod_eq_of_lt w.isLt, BitVec.ofNat_toNat, BitVec.setWidth_eq]

/-- Settles O28: the placed word stands at a PC where the fetch is plain. -/
theorem placedWordRunsNext : Obligations.PlacedWordRunsNext := by
  intro s w i hd hwait
  have hfetch := fetch_plain (withFetchWord_pc_ne_kbsr s 16 w.toNat)
  have hir : (fetch (s.withFetchWord 16 w.toNat)).ir = w := by rw [hfetch]; exact withFetchWord_cell_pc s w
  have hkeys : (fetch (s.withFetchWord 16 w.toNat)).keyIn = s.keyIn := by rw [hfetch]; rfl
  refine ⟨hir, step_of_instr rfl (by rw [hir]; exact hd) (awaitsKey_eq_false ?_)⟩
  rwa [hkeys]

theorem exec_br_never (off : Word) (s : State) : exec (.br false false false off) s = .next s := by
  rw [exec_br, if_neg (by simp [branchTaken_iff])]

/-- Taken or not, a branch by 0 goes on at the incremented PC. -/
theorem exec_br_zero (n z p : Bool) (s : State) : exec (.br n z p 0) s = .next s := by
  have hpc : s.pc + 0 = s.pc := BitVec.add_zero s.pc
  rw [exec_br, hpc]
  split_ifs <;> rfl

/-- The words 0x0000 to 0x01FF are BR with no condition. -/
theorem decode_of_br_never {w : Word} (h : w &&& 0xFE00 = 0x0000) :
    decode w = .instr (.br false false false (fieldOffset9 w)) := by
  have hn : w.getLsbD config.brNBit = false := getLsbD_of_and_eq (k := 11) h (by decide)
  have hz : w.getLsbD config.brZBit = false := getLsbD_of_and_eq (k := 10) h (by decide)
  have hp : w.getLsbD config.brPBit = false := getLsbD_of_and_eq (k := 9) h (by decide)
  rw [decode_of_opBR (opcodeField_of_and_eq h (by decide)), hn, hz, hp]

theorem decode_of_br_zero {w : Word} (h : w &&& 0xF1FF = 0x0000) :
    ∃ n z p, decode w = .instr (.br n z p 0) := by
  have hoff : fieldOffset9 w = 0 := by
    rw [fieldOffset9, extractLsb'_congr (w' := 0) (m := 0xF1FF) h (by decide)]
    decide
  exact ⟨_, _, _, hoff ▸ decode_of_opBR (opcodeField_of_and_eq h (by decide))⟩

/-- Settles O48: no mask bit is set, or the target is the incremented PC. -/
theorem branchNoOps : Obligations.BranchNoOps := by
  intro s hrun hpc hword
  obtain hnever | hzero := hword
  · rw [step_plain hrun hpc (decode_of_br_never hnever) rfl, exec_br_never]
  · obtain ⟨n, z, p, hd⟩ := decode_of_br_zero hzero
    rw [step_plain hrun hpc hd rfl, exec_br_zero]

end Sys2Proof.Proofs
end

section
/-! The read primitive at the mapped addresses, and a store seen by the next fetch (spec/20_memory.md R31 to R35,
R45). -/

namespace Sys2Proof.Proofs

open Sys2Proof Sys2Proof.Machine Sys2Proof.Laws

/-! The two outcomes of a read of KBSR_ADDR. -/

theorem pollKeyboard_cell_kbsr_of_not_avail {s : State} (h : kbdAvail s = false) :
    (pollKeyboard s).cell config.kbsrAddr = 0x0000 := by
  rw [pollKeyboard_of_not_avail h, cell_setCell_self]

theorem pollKeyboard_cell_kbsr_of_avail {s : State} (h : kbdAvail s = true) :
    (pollKeyboard s).cell config.kbsrAddr = s.cell config.kbsrAddr ||| 0x8000 := by
  obtain ⟨hnot, -⟩ | ⟨c, rest, -, -, hpoll⟩ := pollKeyboard_cases s
  · exact absurd (hnot.symm.trans h) Bool.false_ne_true
  · rw [hpoll, storeKey, cell_setCell_ne _ _ kbdr_ne_kbsr.symm, cell_setCell_self]
    rfl

/-- Settles O32: away from KBSR_ADDR a read is plain; there it is the poll, whose two outcomes are these. -/
theorem memReadPollsOnlyKbsr : Obligations.MemReadPollsOnlyKbsr := by
  refine ⟨fun _ _ ha => memRead_plain ha, ?idle, ?ready⟩
  case idle =>
    intro s havail
    have hstatus := pollKeyboard_cell_kbsr_of_not_avail havail
    refine ⟨pollKeyboard s, by rw [memRead_kbsr, hstatus], hstatus, ?others, ?keys, pollKeyboard_frame s⟩
    case others =>
      intro a ha
      rw [pollKeyboard_of_not_avail havail, cell_setCell_ne _ _ ha]
      rfl
    case keys => rw [pollKeyboard_of_not_avail havail, setCell_keyIn, pollMade_keyIn]
  case ready =>
    intro s c rest hk havail
    have hstatus := pollKeyboard_cell_kbsr_of_avail havail
    refine ⟨pollKeyboard s, by rw [memRead_kbsr, hstatus], hstatus, ?data, ?keys, pollKeyboard_frame s⟩
    case data => rw [pollKeyboard_of_avail hk havail, storeKey, cell_setCell_self, zext8_eq_append]
    case keys => rw [pollKeyboard_of_avail hk havail, storeKey_keyIn]

/-- Settles O34: KBDR_ADDR reads plainly; the poll of KBSR_ADDR starts from the word written. -/
theorem mappedWordsReadAfterWrite : Obligations.MappedWordsReadAfterWrite := by
  constructor
  · intro s v
    rw [memRead_plain kbdr_ne_kbsr, cell_memWrite, if_pos rfl]
  · intro s v
    have hsame : kbdAvail (memWrite s config.kbsrAddr v) = kbdAvail s := rfl
    rw [memRead_kbsr]
    cases havail : kbdAvail s with
    | false =>
      rw [if_neg Bool.false_ne_true]
      exact pollKeyboard_cell_kbsr_of_not_avail (hsame.trans havail)
    | true =>
      rw [if_pos rfl, pollKeyboard_cell_kbsr_of_avail (hsame.trans havail), cell_memWrite, if_pos rfl]

/-- A word written where the PC stands is the one the next fetch takes into IR (R45). -/
theorem fetch_memWrite_ir {s : State} {a : Word} (v : Word) (ha : a = s.pc) (hpc : s.pc ≠ config.kbsrAddr) :
    (fetch (memWrite s a v)).ir = v := by
  rw [ha]
  exact fetch_memWrite_pc_ir v hpc

/-- Settles O35: the three stores end in one write, and STI's pointer read leaves the PC alone. -/
theorem storeSeenByNextFetch : Obligations.StoreSeenByNextFetch := by
  refine ⟨?st, ?sti, ?str⟩
  case st =>
    intro sr off s t hpc hea h
    cases h.symm.trans (exec_st sr off s)
    exact fetch_memWrite_ir _ hea hpc
  case sti =>
    intro sr off s t hpc hea h
    cases h.symm.trans (exec_sti sr off s)
    have hsame := memRead_pc s (s.pc + off)
    exact fetch_memWrite_ir _ (hea.trans hsame.symm) (by rwa [hsame])
  case str =>
    intro sr base off s t hpc hea h
    cases h.symm.trans (exec_str sr base off s)
    exact fetch_memWrite_ir _ hea hpc

end Sys2Proof.Proofs
end

section
/-! PUTS and PUTSP (spec/44_trap_reserved.md R113, R115, R122): the bounded walks do what the unbounded loops do. -/

namespace Sys2Proof.Proofs

open Sys2Proof Sys2Proof.Machine Sys2Proof.Laws

theorem putsWalk_stop {a : Word} {s : State} (n : Nat) (h : (memRead s a).1 = 0) :
    putsWalk (n + 1) a s = some (memRead s a).2 :=
  if_pos h

theorem putsWalk_more {a : Word} {s : State} (n : Nat) (h : (memRead s a).1 ≠ 0) :
    putsWalk (n + 1) a s = putsWalk n (a + 1) ((memRead s a).2.conOut (lowByte (memRead s a).1)) :=
  if_neg h

/-- Where the bounded walk ends, the loop of the rule ends in the same state. -/
theorem putsLoop_of_putsWalk {n : Nat} {a : Word} {s t : State} (h : putsWalk n a s = some t) : PutsLoop a s t := by
  induction n generalizing a s with
  | zero => cases h
  | succ n ih =>
    by_cases hz : (memRead s a).1 = 0
    · rw [putsWalk_stop n hz] at h
      cases h
      exact .stop hz
    · rw [putsWalk_more n hz] at h
      exact .more hz (ih h)

/-- Settles O19: the walk ends in every state, and where it ends the loop does. -/
theorem putsCompletesAsItsLoop : Obligations.PutsCompletesAsItsLoop := by
  constructor
  · intro w hw
    exact (decode_of_trapRow hw (by decide) (by decide)).trans (by decide)
  · intro s
    obtain ⟨t, hwalk, ht⟩ := execTrapPuts_next s
    exact ⟨t, ht, putsLoop_of_putsWalk hwalk⟩

theorem putspWalk_stopLow {a : Word} {s : State} (n : Nat) (h : lowByte (memRead s a).1 = 0) :
    putspWalk (n + 1) a s = some (memRead s a).2 :=
  if_pos h

theorem putspWalk_stopHigh {a : Word} {s : State} (n : Nat) (hl : lowByte (memRead s a).1 ≠ 0)
    (hh : highByte (memRead s a).1 = 0) :
    putspWalk (n + 1) a s = some ((memRead s a).2.conOut (lowByte (memRead s a).1)) :=
  (if_neg hl).trans (if_pos hh)

theorem putspWalk_more {a : Word} {s : State} (n : Nat) (hl : lowByte (memRead s a).1 ≠ 0)
    (hh : highByte (memRead s a).1 ≠ 0) :
    putspWalk (n + 1) a s = putspWalk n (a + 1)
      (((memRead s a).2.conOut (lowByte (memRead s a).1)).conOut (highByte (memRead s a).1)) :=
  (if_neg hl).trans (if_neg hh)

theorem putspLoop_of_putspWalk {n : Nat} {a : Word} {s t : State} (h : putspWalk n a s = some t) :
    PutspLoop a s t := by
  induction n generalizing a s with
  | zero => cases h
  | succ n ih =>
    by_cases hl : lowByte (memRead s a).1 = 0
    · rw [putspWalk_stopLow n hl] at h
      cases h
      exact .stopLow hl
    · by_cases hh : highByte (memRead s a).1 = 0
      · rw [putspWalk_stopHigh n hl hh] at h
        cases h
        exact .stopHigh hl hh
      · rw [putspWalk_more n hl hh] at h
        exact .more hl hh (ih h)

/-- Settles O22, as O19. -/
theorem putspCompletesAsItsLoop : Obligations.PutspCompletesAsItsLoop := by
  constructor
  · intro w hw
    exact (decode_of_trapRow hw (by decide) (by decide)).trans (by decide)
  · intro s
    obtain ⟨t, hwalk, ht⟩ := execTrapPutsp_next s
    exact ⟨t, ht, putspLoop_of_putspWalk hwalk⟩

/-! A string in plain memory. -/

/-- The words stand from `a` on, none of them zero, followed by a zero word, none of them at KBSR_ADDR. -/
def PlainString (s : State) : Word → List Word → Prop
  | a, [] => a ≠ config.kbsrAddr ∧ s.cell a = 0
  | a, w :: ws => a ≠ config.kbsrAddr ∧ s.cell a = w ∧ w ≠ 0 ∧ PlainString s (a + 1) ws

/-- Output changes no memory word. -/
theorem plainString_conOut {s : State} {a : Word} {ws : List Word} (b : Byte) (h : PlainString s a ws) :
    PlainString (s.conOut b) a ws := by
  induction ws generalizing a with
  | nil => exact h
  | cons w ws ih =>
    obtain ⟨ha, hw, hnz, hrest⟩ := h
    exact ⟨ha, hw, hnz, ih hrest⟩

/-- The loop of the rule has one outcome on a plain string: its low bytes at the end of the output. -/
theorem putsLoop_plainString {s t : State} {a : Word} {ws : List Word} (hs : PlainString s a ws)
    (h : PutsLoop a s t) : t = { s with console := s.console ++ ws.map lowByte } := by
  induction ws generalizing a s with
  | nil =>
    obtain ⟨ha, hzero⟩ := hs
    cases h with
    | stop => rw [memRead_plain ha, List.map_nil, List.append_nil]
    | more hnz _ => exact absurd hzero (by rwa [memRead_plain ha] at hnz)
  | cons w ws ih =>
    obtain ⟨ha, hw, hnz, hrest⟩ := hs
    cases h with
    | stop hz => exact absurd (hw.symm.trans (by rwa [memRead_plain ha] at hz)) hnz
    | more _ hloop =>
      rw [memRead_plain ha, hw] at hloop
      rw [ih (plainString_conOut _ hrest) hloop, conOut_console, List.append_assoc]
      rfl

/-- `PlainString` says what the claim's clauses by index say. -/
theorem plainString_of_index {s : State} {a : Word} {ws : List Word}
    (haddr : ∀ k, k ≤ ws.length → a + BitVec.ofNat 16 k ≠ config.kbsrAddr)
    (hword : ∀ k (h : k < ws.length), s.cell (a + BitVec.ofNat 16 k) = ws[k] ∧ ws[k] ≠ 0)
    (hzero : s.cell (a + BitVec.ofNat 16 ws.length) = 0) : PlainString s a ws := by
  have hfirst : a + BitVec.ofNat 16 0 = a := BitVec.add_zero a
  have ha : a ≠ config.kbsrAddr := hfirst ▸ haddr 0 (Nat.zero_le _)
  induction ws generalizing a with
  | nil => exact ⟨ha, hfirst ▸ hzero⟩
  | cons w ws ih =>
    have hnext : ∀ k, a + 1 + BitVec.ofNat 16 k = a + BitVec.ofNat 16 (k + 1) := fun k => by
      rw [BitVec.add_assoc, Nat.add_comm k 1, BitVec.ofNat_add]
      rfl
    obtain ⟨hw, hnz⟩ := hword 0 (Nat.zero_lt_succ _)
    refine ⟨ha, hfirst ▸ hw, hnz, ih ?_ ?_ ?_ (BitVec.add_zero _) ?_⟩
    · intro k hk
      rw [hnext]
      exact haddr (k + 1) (Nat.succ_le_succ hk)
    · intro k hk
      rw [hnext]
      exact hword (k + 1) (Nat.succ_lt_succ hk)
    · rw [hnext]
      exact hzero
    · exact haddr 1 (Nat.succ_le_succ (Nat.zero_le _))

/-- Settles O20: PUTS does what its loop does (O19), and the loop has this outcome only. -/
theorem putsPrintsPlainString : Obligations.PutsPrintsPlainString := by
  intro s ws haddr hword hzero
  obtain ⟨t, ht, hloop⟩ := putsCompletesAsItsLoop.2 s
  rw [ht, putsLoop_plainString (plainString_of_index haddr hword hzero) hloop]
  rfl

end Sys2Proof.Proofs
end

section
/-! The console output is never read (spec/10_state.md R23, decision D22): every operation commutes with output put in
front. -/

namespace Sys2Proof.Proofs

open Sys2Proof Sys2Proof.Machine Sys2Proof.Laws

section
variable (bytes : List Byte)

theorem conOut_withEarlierOutput (s : State) (b : Byte) :
    (withEarlierOutput bytes s).conOut b = withEarlierOutput bytes (s.conOut b) := by
  unfold State.conOut withEarlierOutput
  rw [List.append_assoc]

theorem pollKeyboard_withEarlierOutput (s : State) :
    pollKeyboard (withEarlierOutput bytes s) = withEarlierOutput bytes (pollKeyboard s) := by
  obtain ⟨havail, hpoll⟩ | ⟨c, rest, hk, havail, hpoll⟩ := pollKeyboard_cases s
  · rw [hpoll, pollKeyboard_of_not_avail (s := withEarlierOutput bytes s) havail]
    rfl
  · rw [hpoll, pollKeyboard_of_avail (s := withEarlierOutput bytes s) hk havail]
    rfl

theorem memRead_withEarlierOutput (s : State) (a : Word) :
    memRead (withEarlierOutput bytes s) a = ((memRead s a).1, withEarlierOutput bytes (memRead s a).2) := by
  by_cases ha : a = config.kbsrAddr
  · rw [ha, memRead_kbsr, memRead_kbsr, pollKeyboard_withEarlierOutput]
    rfl
  · rw [memRead_plain ha, memRead_plain ha]
    rfl

theorem fetch_withEarlierOutput (s : State) :
    fetch (withEarlierOutput bytes s) = withEarlierOutput bytes (fetch s) := by
  have hpc : (withEarlierOutput bytes s).pc = s.pc := rfl
  unfold fetch
  rw [hpc, memRead_withEarlierOutput]
  rfl

theorem putsWalk_withEarlierOutput (n : Nat) (a : Word) (s : State) :
    putsWalk n a (withEarlierOutput bytes s) = (putsWalk n a s).map (withEarlierOutput bytes) := by
  induction n generalizing a s with
  | zero => rfl
  | succ n ih =>
    have hread := memRead_withEarlierOutput bytes s a
    by_cases hz : (memRead s a).1 = 0
    · rw [putsWalk_stop n hz, putsWalk_stop n (by rw [hread]; exact hz), hread]
      rfl
    · rw [putsWalk_more n hz, putsWalk_more n (by rw [hread]; exact hz), hread, conOut_withEarlierOutput, ih]

theorem putspWalk_withEarlierOutput (n : Nat) (a : Word) (s : State) :
    putspWalk n a (withEarlierOutput bytes s) = (putspWalk n a s).map (withEarlierOutput bytes) := by
  induction n generalizing a s with
  | zero => rfl
  | succ n ih =>
    have hread := memRead_withEarlierOutput bytes s a
    by_cases hl : lowByte (memRead s a).1 = 0
    · rw [putspWalk_stopLow n hl, putspWalk_stopLow n (by rw [hread]; exact hl), hread]
      rfl
    · by_cases hh : highByte (memRead s a).1 = 0
      · rw [putspWalk_stopHigh n hl hh, putspWalk_stopHigh n (by rw [hread]; exact hl) (by rw [hread]; exact hh),
          hread, conOut_withEarlierOutput]
        rfl
      · rw [putspWalk_more n hl hh, putspWalk_more n (by rw [hread]; exact hl) (by rw [hread]; exact hh), hread,
          conOut_withEarlierOutput, conOut_withEarlierOutput, ih]

theorem loadFrom_withEarlierOutput (s : State) (dr : Reg) (ea : Word) :
    loadFrom (withEarlierOutput bytes s) dr ea = withEarlierOutput bytes (loadFrom s dr ea) := by
  rw [loadFrom, memRead_withEarlierOutput]
  rfl

theorem exec_withEarlierOutput (i : Instr) (s : State) :
    exec i (withEarlierOutput bytes s) = mapNext (withEarlierOutput bytes) (exec i s) := by
  cases i with
  | addReg | addImm | andReg | andImm | notReg | jmp | jsr | jsrr | lea | st | str | rti | res => rfl
  | br n z p off =>
    rw [exec_br, exec_br, mapNext, apply_ite (withEarlierOutput bytes)]
    rfl
  | ld dr off =>
    rw [exec_ld, exec_ld, loadFrom_withEarlierOutput]
    rfl
  | ldi dr off =>
    simp only [exec_ldi, memRead_withEarlierOutput, loadFrom_withEarlierOutput]
    rfl
  | ldr dr base off =>
    rw [exec_ldr, exec_ldr, loadFrom_withEarlierOutput]
    rfl
  | sti sr off =>
    simp only [exec_sti, memRead_withEarlierOutput]
    rfl
  | trapGetc =>
    cases hk : s.keyIn with
    | nil =>
      rw [exec_trapGetc_of_empty hk, exec_trapGetc_of_empty (s := withEarlierOutput bytes s) hk]
      rfl
    | cons c rest =>
      rw [exec_trapGetc_of_key hk, exec_trapGetc_of_key (s := withEarlierOutput bytes s) hk]
      rfl
  | trapOut =>
    rw [exec_trapOut, exec_trapOut, conOut_withEarlierOutput]
    rfl
  | trapPuts =>
    obtain ⟨t, hwalk, ht⟩ := execTrapPuts_next s
    obtain ⟨u, hwalk', hu⟩ := execTrapPuts_next (withEarlierOutput bytes s)
    have hsame : some u = some (withEarlierOutput bytes t) :=
      hwalk'.symm.trans ((putsWalk_withEarlierOutput bytes _ _ s).trans (congrArg (Option.map _) hwalk))
    rw [hu, ht, Option.some.inj hsame, mapNext]
  | trapIn =>
    cases hk : s.keyIn with
    | nil =>
      rw [exec_trapIn_of_empty hk, exec_trapIn_of_empty (s := withEarlierOutput bytes s) hk]
      rfl
    | cons c rest =>
      have hecho := conOut_withEarlierOutput bytes { s with keyIn := rest } c
      rw [exec_trapIn_of_key hk, exec_trapIn_of_key (s := withEarlierOutput bytes s) hk]
      exact congrArg (fun u => (.next (storeChar u c) : Result)) hecho
  | trapPutsp =>
    obtain ⟨t, hwalk, ht⟩ := execTrapPutsp_next s
    obtain ⟨u, hwalk', hu⟩ := execTrapPutsp_next (withEarlierOutput bytes s)
    have hsame : some u = some (withEarlierOutput bytes t) :=
      hwalk'.symm.trans ((putspWalk_withEarlierOutput bytes _ _ s).trans (congrArg (Option.map _) hwalk))
    rw [hu, ht, Option.some.inj hsame, mapNext]
  | trapHalt => simp only [exec_trapHalt, mapNext, withEarlierOutput, List.append_assoc]

theorem step_withEarlierOutput (s : State) :
    step (withEarlierOutput bytes s) = mapNext (withEarlierOutput bytes) (step s) := by
  cases hrun : s.run with
  | halted =>
    rw [step_of_halted hrun, step_of_halted (s := withEarlierOutput bytes s) hrun]
    rfl
  | faulted cause ir addr =>
    rw [step_of_faulted hrun, step_of_faulted (s := withEarlierOutput bytes s) hrun]
    rfl
  | running =>
    have hfetch := fetch_withEarlierOutput bytes s
    have hir : (fetch (withEarlierOutput bytes s)).ir = (fetch s).ir := by rw [hfetch]; rfl
    cases hd : decode (fetch s).ir with
    | undefinedTrap v =>
      rw [step_of_undefinedTrap hrun hd,
        step_of_undefinedTrap (s := withEarlierOutput bytes s) hrun (by rw [hir]; exact hd), hfetch]
      rfl
    | instr i =>
      have hawaits : awaitsKey i (fetch (withEarlierOutput bytes s)) = awaitsKey i (fetch s) := by rw [hfetch]; rfl
      cases hwait : awaitsKey i (fetch s) with
      | true =>
        rw [step_of_hold hrun hd hwait, step_of_hold (s := withEarlierOutput bytes s) hrun (by rw [hir]; exact hd)
          (hawaits.trans hwait)]
        rfl
      | false =>
        rw [step_of_instr hrun hd hwait, step_of_instr (s := withEarlierOutput bytes s) hrun
          (by rw [hir]; exact hd) (hawaits.trans hwait), hfetch, exec_withEarlierOutput]

end

/-- Settles O55: the fetch, every instruction and the string loops commute with earlier output. -/
theorem consoleOutputNeverRead : Obligations.ConsoleOutputNeverRead := by
  intro s bytes
  exact step_withEarlierOutput bytes s

end Sys2Proof.Proofs
end

section
/-! The invariant (spec/20_memory.md R30, spec/60_exceptions.md R130, spec/70_reset_and_hazards.md R162): at reset and
over every step. -/

namespace Sys2Proof.Proofs

open Sys2Proof Sys2Proof.Machine Sys2Proof.Laws

theorem runRecordOk_of_running {s : State} (h : s.run = .running) : RunRecordOk s := by
  unfold RunRecordOk
  rw [h]
  trivial

/-- Settles O52. -/
theorem resetMeetsInvariant : Obligations.ResetMeetsInvariant := ⟨rfl, trivial⟩

/-- Settles O49: the fields are their values, and the codes of COND make a BR at Zero look at z. -/
theorem resetValues : Obligations.ResetValues := by
  refine ⟨rfl, rfl, fun r => by cases r <;> rfl, rfl, fun _ => rfl, rfl, ?branch⟩
  case branch =>
    intro n z p off
    have htaken : branchTaken n z p State.reset.cond = z := by
      rw [Bool.eq_iff_iff, branchTaken_iff]
      simp [State.reset, config]
    have hpc : State.reset.pc + off = off := BitVec.zero_add off
    rw [exec_br, htaken, hpc]
    cases z <;> rfl

theorem runRecordOk_raiseFault_reserved {s : State} (h : decode s.ir = .instr .rti ∨ decode s.ir = .instr .res) :
    RunRecordOk (raiseFault .reservedOpcode s) :=
  ⟨rfl, rfl, h⟩

theorem runRecordOk_raiseFault_vector {s : State} {v : BitVec 8} (h : decode s.ir = .undefinedTrap v) :
    RunRecordOk (raiseFault .badTrapVector s) :=
  ⟨rfl, rfl, v, h⟩

/-- An instruction run with its own word in IR leaves a truthful RUN. -/
theorem runRecordOk_exec {i : Instr} {s t : State} (hrun : s.run = .running) (hd : decode s.ir = .instr i)
    (h : exec i s = .next t) : RunRecordOk t := by
  cases i with
  | trapHalt =>
    cases h.symm.trans (exec_trapHalt s)
    exact ⟨hd, List.suffix_append _ _⟩
  | rti =>
    cases h.symm.trans (exec_rti s)
    exact runRecordOk_raiseFault_reserved (.inl hd)
  | res =>
    cases h.symm.trans (exec_res s)
    exact runRecordOk_raiseFault_reserved (.inr hd)
  | _ => exact runRecordOk_of_running ((exec_run h).trans hrun)

theorem inv_step {s t : State} (hinv : Inv s) (h : step s = .next t) : Inv t := by
  obtain ⟨hrun, ⟨v, hd, rfl⟩ | ⟨i, -, -, rfl⟩ | ⟨i, hd, -, hexec⟩⟩ := step_cases h
  · exact ⟨wf_fetch hinv.1, runRecordOk_raiseFault_vector hd⟩
  · exact hinv
  · exact ⟨wf_exec (wf_fetch hinv.1) hexec, runRecordOk_exec ((fetch_run s).trans hrun) hd hexec⟩

/-- Settles O53: the fetch keeps the memory, and each way a step ends leaves the record it should. -/
theorem stepKeepsInvariant : Obligations.StepKeepsInvariant := fun _ _ => inv_step

end Sys2Proof.Proofs
end

section
/-! Images and the boot (spec/70_reset_and_hazards.md R150 to R154), and the runs of a booted program. -/

namespace Sys2Proof.Proofs

open Sys2Proof Sys2Proof.Machine Sys2Proof.Laws

/-! The words of an image, and their places. -/

theorem imageWords_length : ∀ bytes : List Byte, (imageWords bytes).length = bytes.length / 2
  | [] => rfl
  | [_] => by simp [imageWords]
  | hi :: lo :: rest => by
    rw [imageWords, List.length_cons, imageWords_length rest, List.length_cons, List.length_cons]
    omega

/-- The k-th word is made of bytes 2k and 2k+1, the first one high. -/
theorem imageWords_getElem? : ∀ (bytes : List Byte) (k : Nat) (h : 2 * k + 1 < bytes.length),
    (imageWords bytes)[k]? = some (bytes[2 * k] ++ bytes[2 * k + 1])
  | hi :: lo :: rest, 0, _ => rfl
  | hi :: lo :: rest, k + 1, h => by
    have hrest : 2 * k + 1 < rest.length := by simp only [List.length_cons] at h; omega
    rw [imageWords, List.getElem?_cons_succ, imageWords_getElem? rest k hrest]
    rfl

theorem read_placeWords_outside {a b : Nat} {ws : List Word} (m : Memory) (h : b < a ∨ a + ws.length ≤ b) :
    Memory.read (placeWords m a ws) b = Memory.read m b := by
  induction ws generalizing m a with
  | nil => rfl
  | cons w ws ih =>
    rw [List.length_cons] at h
    rw [placeWords, ih _ (by omega), read_write_ne _ _ (by omega)]

theorem read_placeWords_at {a k : Nat} {ws : List Word} {w : Word} (m : Memory) (h : ws[k]? = some w) :
    Memory.read (placeWords m a ws) (a + k) = w := by
  induction ws generalizing m a k with
  | nil => simp at h
  | cons v ws ih =>
    rw [placeWords]
    cases k with
    | zero =>
      cases h
      exact (read_placeWords_outside _ (.inl (Nat.lt_add_one a))).trans (read_write_self m a w)
    | succ k =>
      rw [Nat.add_comm k 1, ← Nat.add_assoc]
      exact ih _ h

theorem wf_placeWords {m : Memory} {a : Nat} {ws : List Word} (hfit : a + ws.length ≤ 65536)
    (h : Memory.wf m = true) : Memory.wf (placeWords m a ws) = true := by
  induction ws generalizing m a with
  | nil => exact h
  | cons w ws ih =>
    rw [List.length_cons] at hfit
    exact ih (by omega) (wf_write w (by omega) h)

/-! One image. -/

theorem loadImage_ok {hi lo : Byte} {payload : List Byte} (s : State) (heven : payload.length % 2 = 0)
    (hfit : (hi ++ lo).toNat + payload.length / 2 ≤ 65536) : loadImage (hi :: lo :: payload) s =
      .ok { s with mem := placeWords s.mem (hi ++ lo).toNat (imageWords payload), pc := hi ++ lo } := by
  rw [loadImage, if_neg (by omega), if_neg (by omega)]

theorem loadImage_error {hi lo : Byte} {payload : List Byte} (s : State)
    (h : payload.length % 2 = 1 ∨ 65536 < (hi ++ lo).toNat + payload.length / 2) :
    loadImage (hi :: lo :: payload) s = .error .imageFormat := by
  rw [loadImage]
  split_ifs with hodd hlong
  · rfl
  · rfl
  · omega

theorem loadImage_short (s : State) : ∀ bytes : List Byte, bytes.length < 2 →
    loadImage bytes s = .error .imageFormat
  | [], _ => rfl
  | [_], _ => rfl
  | _ :: _ :: rest, h => by simp only [List.length_cons] at h; omega

/-- What a load that succeeds has done. -/
theorem loadImage_cases {bytes : List Byte} {s t : State} (h : loadImage bytes s = .ok t) :
    ∃ hi lo payload, bytes = hi :: lo :: payload ∧ (hi ++ lo).toNat + payload.length / 2 ≤ 65536 ∧
      t = { s with mem := placeWords s.mem (hi ++ lo).toNat (imageWords payload), pc := hi ++ lo } := by
  obtain _ | ⟨hi, _ | ⟨lo, payload⟩⟩ := bytes
  · cases h
  · cases h
  · by_cases hbad : payload.length % 2 = 1 ∨ 65536 < (hi ++ lo).toNat + payload.length / 2
    · cases h.symm.trans (loadImage_error s hbad)
    · cases h.symm.trans (loadImage_ok s (by omega) (by omega))
      exact ⟨hi, lo, payload, rfl, by omega, rfl⟩

/-- Settles O50: the words of the payload, written one after the other from the origin. -/
theorem loadImagePlacesWords : Obligations.LoadImagePlacesWords := by
  refine ⟨?placed, fun _ _ _ s h => loadImage_error s h, fun bytes s h => loadImage_short s bytes h⟩
  case placed =>
    intro hi lo payload s heven hfit
    refine ⟨_, loadImage_ok s heven hfit, rfl, ?words, ?others⟩
    case words =>
      intro k hk
      exact read_placeWords_at s.mem (imageWords_getElem? payload k hk)
    case others =>
      intro a ha
      exact read_placeWords_outside s.mem (by rwa [imageWords_length])

/-! All images, and the boot. -/

/-- What every load leaves as it was at reset, the memory's canonical form included. -/
def AsBooted (s : State) : Prop :=
  s.regs = State.reset.regs ∧ s.cond = State.reset.cond ∧ s.run = .running ∧ s.console = [] ∧
    Memory.wf s.mem = true

theorem asBooted_loadImage {bytes : List Byte} {s t : State} (hs : AsBooted s) (h : loadImage bytes s = .ok t) :
    AsBooted t := by
  obtain ⟨hi, lo, payload, -, hfit, rfl⟩ := loadImage_cases h
  obtain ⟨hregs, hcond, hrun, hconsole, hwf⟩ := hs
  exact ⟨hregs, hcond, hrun, hconsole, wf_placeWords (by rwa [imageWords_length]) hwf⟩

theorem loadImages_cons_ok {b : List Byte} {bs : List (List Byte)} {s t : State}
    (h : loadImages (b :: bs) s = .ok t) : ∃ u, loadImage b s = .ok u ∧ loadImages bs u = .ok t := by
  cases hb : loadImage b s with
  | error e => simp only [loadImages, hb] at h; cases h
  | ok u =>
    simp only [loadImages, hb] at h
    exact ⟨u, rfl, h⟩

theorem asBooted_loadImages {images : List (List Byte)} {s t : State} (hs : AsBooted s)
    (h : loadImages images s = .ok t) : AsBooted t := by
  induction images generalizing s with
  | nil => cases h; exact hs
  | cons b bs ih =>
    obtain ⟨u, hu, hrest⟩ := loadImages_cons_ok h
    exact ih (asBooted_loadImage hs hu) hrest

theorem loadImages_concat_ok {images : List (List Byte)} {last : List Byte} {s t : State}
    (h : loadImages (images ++ [last]) s = .ok t) : ∃ u, loadImage last u = .ok t := by
  induction images generalizing s with
  | nil =>
    obtain ⟨u, hu, hrest⟩ := loadImages_cons_ok h
    cases hrest
    exact ⟨s, hu⟩
  | cons b bs ih =>
    obtain ⟨u, -, hrest⟩ := loadImages_cons_ok h
    exact ih hrest

theorem loadImages_of_boot {images : List (List Byte)} {t : State} (h : boot images = .ok t) :
    loadImages images State.reset = .ok t := by
  unfold boot at h
  split_ifs at h
  exact h

theorem asBooted_of_boot {images : List (List Byte)} {t : State} (h : boot images = .ok t) : AsBooted t :=
  asBooted_loadImages ⟨rfl, rfl, rfl, rfl, rfl⟩ (loadImages_of_boot h)

/-- Settles O51: loads keep the reset values, and the last one sets the PC. -/
theorem bootStartsAtLastOrigin : Obligations.BootStartsAtLastOrigin := by
  refine ⟨rfl, fun images last t h => ?_⟩
  obtain ⟨u, hlast⟩ := loadImages_concat_ok (loadImages_of_boot h)
  obtain ⟨hi, lo, payload, hbytes, -, rfl⟩ := loadImage_cases hlast
  exact ⟨hi, lo, payload, hbytes, rfl, asBooted_of_boot h⟩

/-! Runs. -/

theorem inv_of_boot {images : List (List Byte)} {s : State} (h : boot images = .ok s) : Inv s := by
  obtain ⟨-, -, hrun, -, hwf⟩ := asBooted_of_boot h
  exact ⟨hwf, runRecordOk_of_running hrun⟩

/-- Steps and supplied characters keep the invariant, and so does a run. -/
theorem inv_of_reaches {s t : State} (hs : Inv s) (h : Reaches s t) : Inv t := by
  induction h with
  | refl => exact hs
  | step _ hstep ih => exact inv_step ih hstep
  | keys cs _ ih => exact ih

theorem haltMsg_suffix_of_endsWell {s : State} (hs : RunRecordOk s) (h : s.EndsWell) :
    config.haltMsg <:+ s.console := by
  unfold State.EndsWell at h
  unfold RunRecordOk at hs
  rw [h] at hs
  exact hs.2

theorem decode_ir_of_endsFatally {s : State} (hs : RunRecordOk s) (h : s.EndsFatally) :
    decode s.ir = .instr .rti ∨ decode s.ir = .instr .res ∨ ∃ v, decode s.ir = .undefinedTrap v := by
  obtain ⟨cause, ir, addr, hrun⟩ := h
  unfold RunRecordOk at hs
  rw [hrun] at hs
  cases cause with
  | reservedOpcode =>
    obtain ⟨rfl, -, hd⟩ := hs
    exact hd.imp_right .inl
  | badTrapVector =>
    obtain ⟨rfl, -, hd⟩ := hs
    exact .inr (.inr hd)

/-- Settles O54: the invariant of O53 over the run, and what it says of an ended one. -/
theorem bootedRunsKeepInvariant : Obligations.BootedRunsKeepInvariant := by
  intro images s t hboot hreach
  have hinv := inv_of_reaches (inv_of_boot hboot) hreach
  exact ⟨hinv, haltMsg_suffix_of_endsWell hinv.2, decode_ir_of_endsFatally hinv.2⟩

end Sys2Proof.Proofs
end
